-- ==== Sys2Proof/Word.lean ====
section
/-! DEFINITION. The words of the block: bytes, symbols, group values, tail indices, and the command words
of its two ports (00_scope.md R7, R9; 30_encoding.md R92, R93). -/

namespace Sys2Proof

/-- One unit of the byte stream, 8 bits (R7, R62). -/
abbrev Byte := BitVec 8

/-- A symbol value, `SYM_W` = 21 bits, compared for equality only (R9, R17). -/
abbrev Symbol := BitVec 21

/-- An 11-bit group value, the index into ROM P (R7, R18, R51). -/
abbrev Group := BitVec 11

/-- A 3-bit residual value, the index into ROM T (R7, R60). -/
abbrev TailIndex := BitVec 3

/-- A command word of the ENC port, 10 bits (R92). -/
abbrev EncWord := BitVec 10

/-- A command word of the DEC port, 24 bits (R93). -/
abbrev DecWord := BitVec 24

/-- The two command ports (R91). -/
inductive Port where
  | enc
  | dec
  deriving DecidableEq, Repr

/-- A command word as the host presents it: the port says how wide it is. -/
inductive CmdWord where
  | enc (w : EncWord)
  | dec (w : DecWord)
  deriving DecidableEq, Repr

/-- The port a command word is presented to. -/
def CmdWord.port : CmdWord → Port
  | .enc _ => .enc
  | .dec _ => .dec

/-- A command word read as a number, bit 0 the least significant (R10). -/
def CmdWord.toNat : CmdWord → Nat
  | .enc w => BitVec.toNat w
  | .dec w => BitVec.toNat w

end Sys2Proof
end

