-- ==== Sys2Proof/Config.lean ====
section
/-! DEFINITION. What is fixed for one instance of the block: the two tables the spec leaves open
(00_scope.md R8, 92_eei_decisions.md D2). The fixed parameters of R7 (11, 8, 3, 2048, 8, pad bit 1)
stand as numerals in the types of Word.lean and in the formulas, as the spec's pseudocode writes them. -/

namespace Sys2Proof

/-- The tables the operations take as an argument: `PRIMARY_TABLE` and `TAIL_TABLE` (R8). ROM R is no
parameter: it is computed from `primary` (R54). -/
structure Tables where
  /-- `PRIMARY_TABLE`, the contents of ROM P (R51). -/
  primary : Group → Symbol
  /-- `TAIL_TABLE`, the contents of ROM T (R60). -/
  tail : TailIndex → Symbol

namespace Config

/-- `PRIMARY_TABLE` of this instance: the spec gives no entry (R8, D2), so nothing can be known of it. -/
opaque primaryTable : Group → Symbol

/-- `TAIL_TABLE` of this instance: the spec gives no entry (R8, D2), so nothing can be known of it. -/
opaque tailTable : TailIndex → Symbol

/-- The tables this instance was built with; no operation changes them (R41, R74, R242). -/
def tables : Tables := ⟨primaryTable, tailTable⟩

end Config

end Sys2Proof
end

