-- ==== Sys2Proof/Syntax.lean ====
section
/-! DEFINITION. The operation set `B2048-OPS-1` (30_encoding.md R91): one constructor for each row of the
opcode table. The fields a unit ignores (R96) are no operands. -/

namespace Sys2Proof

/-- The six operations (R91, R94, R95). -/
inductive Instr where
  /-- `ENC.START` (40_encoder_ops.md R110). -/
  | encStart
  /-- `ENC.BYTE b` (40_encoder_ops.md R111). -/
  | encByte (b : Byte)
  /-- `ENC.END` (40_encoder_ops.md R116). -/
  | encEnd
  /-- `DEC.START` (41_decoder_ops.md R140). -/
  | decStart
  /-- `DEC.SYM s, last` (41_decoder_ops.md R141). -/
  | decSym (sym : Symbol) (last : Bool)
  /-- `DEC.END` (41_decoder_ops.md R170). -/
  | decEnd
  deriving DecidableEq, Repr

/-- The unit whose port takes the operation (R91). -/
def Instr.port : Instr → Port
  | .encStart => .enc
  | .encByte _ => .enc
  | .encEnd => .enc
  | .decStart => .dec
  | .decSym _ _ => .dec
  | .decEnd => .dec

/-- The operation's name as the opcode table spells it. -/
def Instr.mnemonic : Instr → String
  | .encStart => "ENC.START"
  | .encByte _ => "ENC.BYTE"
  | .encEnd => "ENC.END"
  | .decStart => "DEC.START"
  | .decSym _ _ => "DEC.SYM"
  | .decEnd => "DEC.END"

end Sys2Proof
end

