-- ==== Sys2Proof/Source.lean ====
section
/-! DEFINITION. The assembler's lines as data (30_encoding.md R100 to R102): operations and
pseudo-operations with their operands as written, before any range is checked. -/

namespace Sys2Proof

/-- A symbol operand as written (R101): `P[g]`, `T[i]` or `U+<hex>`. -/
inductive SymOperand where
  | primary (g : Nat)
  | tail (i : Nat)
  | literal (v : Nat)
  deriving DecidableEq, Repr

/-- One line of assembler source (R100, R102). -/
inductive SourceLine where
  | encStart
  | encByte (b : Nat)
  | encEnd
  | decStart
  /-- `DEC.SYM <sym>` (`last = false`) or `DEC.SYM.L <sym>` (`last = true`). -/
  | decSym (s : SymOperand) (last : Bool)
  | decEnd
  /-- The pseudo-operation `ENCODE b0, b1, ...` (R102). -/
  | encode (bs : List Nat)
  /-- The pseudo-operation `DECODE s0, s1, ...` (R102). -/
  | decode (ss : List SymOperand)
  deriving DecidableEq, Repr

end Sys2Proof
end

