-- ==== Sys2Proof/WellFormed.lean ====
section
/-! DEFINITION. What must hold of the things handed to the block. A term of `Instr` is well formed by its
type (an 8-bit byte, a 21-bit symbol, one bit); what can be ill formed is a command word (30_encoding.md
R98), a source line (R100, R101) and a pair of tables (20_memory.md R52, R53, R55). -/

namespace Sys2Proof

/-- A command word is well formed when its opcode, the two most significant bits, is not the reserved
`11` (R98, R253). -/
def CmdWord.wellFormed : CmdWord → Bool
  | .enc w => decide (BitVec.toNat w / 2 ^ 8 ≠ 3)
  | .dec w => decide (BitVec.toNat w / 2 ^ 22 ≠ 3)

/-- The ranges of a symbol operand (R101). -/
def SymOperand.wellFormed : SymOperand → Bool
  | .primary g => decide (g < 2048)
  | .tail i => decide (i < 8)
  | .literal v => decide (v < 2 ^ 21)

/-- The ranges of the operands of a source line (R100 to R102). -/
def SourceLine.wellFormed : SourceLine → Bool
  | .encStart => true
  | .encByte b => decide (b < 256)
  | .encEnd => true
  | .decStart => true
  | .decSym s _ => s.wellFormed
  | .decEnd => true
  | .encode bs => bs.all fun b => decide (b < 256)
  | .decode ss => ss.all SymOperand.wellFormed

/-- The invariants whoever supplies the tables owes (R246); the block never checks them. R54 needs no
clause: ROM R is computed from the primary table. -/
structure Tables.WF (T : Tables) : Prop where
  /-- P-INJ (R52). -/
  primary_inj : ∀ g₁ g₂ : Group, T.primary g₁ = T.primary g₂ → g₁ = g₂
  /-- PT-DISJ (R53). -/
  disjoint : ∀ (g : Group) (i : TailIndex), T.primary g ≠ T.tail i
  /-- T-INJ (R55). -/
  tail_inj : ∀ i₁ i₂ : TailIndex, T.tail i₁ = T.tail i₂ → i₁ = i₂

end Sys2Proof
end

