-- ==== Sys2Proof/Decode.lean ====
section
/-! DEFINITION. From command words to operations and back (30_encoding.md R91 to R98). -/

namespace Sys2Proof

/-- What a command word selects: one of its unit's three operations, or nothing, being reserved (R96, R98). -/
inductive Decoded where
  | op (i : Instr)
  | reserved (p : Port)
  deriving DecidableEq, Repr

/-- The ENC port's command word: `op` in bits 9:8, `byte` in bits 7:0 (R92, R94, R96). -/
def decodeEnc (w : EncWord) : Decoded :=
  match (w.extractLsb' 8 2).toNat with
  | 0 => .op .encStart
  | 1 => .op (.encByte (w.extractLsb' 0 8))
  | 2 => .op .encEnd
  | _ => .reserved .enc

/-- The DEC port's command word: `op` in bits 23:22, `last` in bit 21, `sym` in bits 20:0 (R93, R95, R96, R97). -/
def decodeDec (w : DecWord) : Decoded :=
  match (w.extractLsb' 22 2).toNat with
  | 0 => .op .decStart
  | 1 => .op (.decSym (w.extractLsb' 0 21) (w.getLsbD 21))
  | 2 => .op .decEnd
  | _ => .reserved .dec

/-- The decoder: total over every word of either port (R96). -/
def decode : CmdWord → Decoded
  | .enc w => decodeEnc w
  | .dec w => decodeDec w

/-- The ENC word of an opcode and a `byte` field (R92). -/
def encWord (op byte : Nat) : CmdWord := .enc (BitVec.ofNat 10 (op * 2 ^ 8 + byte))

/-- The DEC word of an opcode, a `last` bit and a `sym` field (R93). -/
def decWord (op last sym : Nat) : CmdWord := .dec (BitVec.ofNat 24 (op * 2 ^ 22 + last * 2 ^ 21 + sym))

/-- The encoder: the canonical word of an operation, ignored fields zero (R94, R95, R96). -/
def encode : Instr → CmdWord
  | .encStart => encWord 0 0
  | .encByte b => encWord 1 b.toNat
  | .encEnd => encWord 2 0
  | .decStart => decWord 0 0 0
  | .decSym s last => decWord 1 last.toNat s.toNat
  | .decEnd => decWord 2 0 0

/-- One row of the opcode tables of R94 and R95. -/
structure OpcodeRow where
  mnemonic : String
  port : Port
  pattern : Nat
  mask : Nat
  deriving DecidableEq, Repr

/-- The opcode tables of R94 and R95, the reserved rows with them. -/
def opcodeRows : List OpcodeRow :=
  [⟨"ENC.START", .enc, 0x000, 0x300⟩, ⟨"ENC.BYTE", .enc, 0x100, 0x300⟩,
   ⟨"ENC.END", .enc, 0x200, 0x300⟩, ⟨"reserved", .enc, 0x300, 0x300⟩,
   ⟨"DEC.START", .dec, 0x000000, 0xC00000⟩, ⟨"DEC.SYM", .dec, 0x400000, 0xC00000⟩,
   ⟨"DEC.END", .dec, 0x800000, 0xC00000⟩, ⟨"reserved", .dec, 0xC00000, 0xC00000⟩]

/-- A word matches a row of its own port when the bits under the mask are the pattern (R94, R95). -/
def OpcodeRow.matchesWord (r : OpcodeRow) (w : CmdWord) : Bool :=
  decide (r.port = w.port) && decide (w.toNat &&& r.mask = r.pattern)

/-- The name of the row a decoded word belongs to. -/
def Decoded.rowName : Decoded → String
  | .op i => i.mnemonic
  | .reserved _ => "reserved"

/-- The command word with these bits (bit 0 the least significant), if a port is that wide: rows of at
most 16 bits are the ENC port's 10-bit words, longer ones the DEC port's 24-bit words. A value with a bit
above its port's width is no word of it. -/
def tableWord (nbits w : Nat) : Option CmdWord :=
  if nbits ≤ 16 then
    if w < 2 ^ 10 then some (.enc (BitVec.ofNat 10 w)) else none
  else if w < 2 ^ 24 then some (.dec (BitVec.ofNat 24 w)) else none

/-- The operation the decoder reads from a word numbered as the opcode table numbers it. -/
def decodeTableWord (nbits w : Nat) : Option Instr :=
  match tableWord nbits w with
  | none => none
  | some c =>
    match decode c with
    | .op i => some i
    | .reserved _ => none

end Sys2Proof
end

