-- ==== Sys2Proof/Machine/State.lean ====
section
/-! DEFINITION. The state of the block as plain data (10_state.md), the reasons a step can stop, and the
state after reset. -/

namespace Sys2Proof.Machine

/-- Why the machine would stop with a fault. It has no constructor: the block has no trap and no operation
can raise an access, arithmetic, alignment or illegal-operation fault (60_exceptions.md R217). Safe: nothing
is stopped. -/
inductive Fault : Type
  deriving DecidableEq, Repr

/-- Why a word is given no step. -/
inductive Refusal where
  /-- Raised by an arm of `exec` that has no meaning yet. Safe: nothing can be proved about it. -/
  | notModelled (mnemonic : String)
  /-- Raised by `step` on an ENC word with `op = 11` (30_encoding.md R98, 93_implementation_defined.md U2). Safe. -/
  | reservedEncWord
  /-- Raised by `step` on a DEC word with `op = 11` (30_encoding.md R98, 93_implementation_defined.md U2). Safe. -/
  | reservedDecWord
  deriving DecidableEq, Repr

/-- `DPH`, the phase of the decode transaction (10_state.md R34); the value 3 never occurs. -/
inductive Phase where
  | empty
  | opened
  | closed
  deriving DecidableEq, Repr

/-- The five causes of a decode failure (60_exceptions.md R210). -/
inductive Cause where
  | prematureSentinel
  | unknownSymbol
  | invalidTailPadding
  | tailMisaligned
  | protocolViolation
  deriving DecidableEq, Repr

/-- What the host does to the block: present a command word to a port, or assert the reset input
(10_state.md R32, 70_reset_and_hazards.md R240). -/
inductive HostEvent where
  | command (w : CmdWord)
  | reset
  deriving DecidableEq, Repr

/-- The ENC unit: its two registers (R20), its output port (30_encoding.md R104) and the observation log of
the symbols it has emitted (R39). -/
structure EncUnit where
  /-- `ESTAGE` (R21). -/
  estage : BitVec 10
  /-- `EREM` (R22). -/
  erem : BitVec 4
  /-- `sym_valid` and `sym` after the latest ENC operation (R104). -/
  port : Option Symbol
  /-- Every symbol emitted so far, oldest first; the block never reads it (R39). -/
  log : List Symbol
  deriving DecidableEq, Repr

/-- The DEC unit: its six registers (R20), its output port (30_encoding.md R103, R105) and the observation
log of the bytes it has emitted (R39). -/
structure DecUnit where
  /-- `DSTAGE` (R25). -/
  dstage : BitVec 7
  /-- `DREM` (R26). -/
  drem : BitVec 3
  /-- `DRES` (R27). -/
  dres : BitVec 3
  /-- `DFAIL` (R33). -/
  dfail : Bool
  /-- `DPH` (R34). -/
  dph : Phase
  /-- `DCAUSE` (R35); `none` is code 0. -/
  dcause : Option Cause
  /-- `byte_count`, `byte0`, `byte1` after the latest DEC operation (R105). -/
  bytes : List Byte
  /-- `done` and `ok` after the latest DEC operation (R103); `none` is `done = 0`. -/
  status : Option Bool
  /-- Every byte emitted so far, oldest first; the block never reads it (R39). -/
  log : List Byte
  deriving DecidableEq, Repr

/-- One instance of the block, an ENC and a DEC unit (60_exceptions.md R227), and what the host has still
to issue to it, in order (the model's own field: the operation stream is the host's, R41). -/
structure State where
  enc : EncUnit
  dec : DecUnit
  pending : List HostEvent
  deriving DecidableEq, Repr

/-- The ENC unit after reset (R40, R241). -/
def EncUnit.reset : EncUnit :=
  { estage := 0#10, erem := 0#4, port := none, log := [] }

/-- The DEC unit after reset (R40, R241). -/
def DecUnit.reset : DecUnit :=
  { dstage := 0#7, drem := 0#3, dres := 0#3, dfail := false, dph := .empty, dcause := none,
    bytes := [], status := none, log := [] }

/-- The machine right after reset: every register 0, no valid output, nothing issued yet (R40, R240, R241). -/
def State.reset : State :=
  { enc := EncUnit.reset, dec := DecUnit.reset, pending := [] }

end Sys2Proof.Machine
end

