-- ==== Sys2Proof/Machine/Ops.lean ====
section
/-! DEFINITION. The shared operations: arithmetic primitives (00_scope.md R11, R12), ROM reads (20_memory.md
R54 to R61), output (00_scope.md R15), clearing a unit, taking a decode failure and leaving it
(60_exceptions.md R220, R224), the flush loop (41_decoder_ops.md R155), reset and the taking of host events. -/

namespace Sys2Proof.Machine

/-! ### Arithmetic on naturals -/

/-- `ones(n)`, the value of `n` one bits (R11). -/
def ones (n : Nat) : Nat := 2 ^ n - 1

/-- The number of consecutive 1 bits of `x` from bit 0, looking at `k` bits at most. -/
def trailingOnesUpTo : Nat → Nat → Nat
  | 0, _ => 0
  | k + 1, x => if x % 2 = 1 then trailingOnesUpTo k (x / 2) + 1 else 0

/-- `trailing_ones(x)` (R11): a number `x` has at most `x` of them. -/
def trailingOnes (x : Nat) : Nat := trailingOnesUpTo x x

/-- `a ++_n b`: the bits of `a`, then the `n` bits of `b` (R12). -/
def concatBits (a n b : Nat) : Nat := (a <<< n) ||| b

/-! ### Tables -/

/-- The answer of ROM R (20_memory.md R54, R58). -/
inductive RevEntry where
  | hit (g : Group)
  | miss
  deriving DecidableEq, Repr

/-- The answer of a search of ROM T (20_memory.md R59). -/
inductive TailEntry where
  | found (i : TailIndex)
  | absent
  deriving DecidableEq, Repr

/-- `RomP(g)` (R56). -/
def romP (T : Tables) (g : Group) : Symbol := T.primary g

/-- `RomT(i)` (R57). -/
def romT (T : Tables) (i : TailIndex) : Symbol := T.tail i

/-- `RomR(s)`: the group whose primary symbol is `s`, or `Miss` (R54, R58). Under P-INJ (R52) there is at
most one; without it the least is taken (log entry 6). -/
@[irreducible] def romR (T : Tables) (s : Symbol) : RevEntry :=
  match (List.range 2048).find? fun g => decide (T.primary (BitVec.ofNat 11 g) = s) with
  | some g => .hit (BitVec.ofNat 11 g)
  | none => .miss

/-- `TailFind(s)`: the least index at which ROM T holds `s`, or `Absent` (R59). -/
def tailFind (T : Tables) (s : Symbol) : TailEntry :=
  match (List.range 8).find? fun i => decide (T.tail (BitVec.ofNat 3 i) = s) with
  | some i => .found (BitVec.ofNat 3 i)
  | none => .absent

/-- The 12-bit word that stores an entry of ROM R: the group, or `0xFFF` for `Miss` (R61). -/
def RevEntry.toWord : RevEntry → BitVec 12
  | .hit g => BitVec.ofNat 12 g.toNat
  | .miss => 0xFFF#12

/-- What the decoder reads from a stored word: bit 11 set means `Miss` (R61). -/
def RevEntry.ofWord (e : BitVec 12) : RevEntry :=
  if e.getLsbD 11 then .miss else .hit (e.extractLsb' 0 11)

/-! ### The ENC unit -/

/-- The accumulator emptied (40_encoder_ops.md R110, R120). -/
def EncUnit.clear (u : EncUnit) : EncUnit := { u with estage := 0#10, erem := 0#4 }

/-- The accumulator written, both registers at once (00_scope.md R13). Neither write truncates in a state
that a run reaches (42_whole_buffer_functions.md R200). -/
def EncUnit.write (u : EncUnit) (stage rem : Nat) : EncUnit :=
  { u with estage := BitVec.ofNat 10 stage, erem := BitVec.ofNat 4 rem }

/-- `emit_sym(s)`: the port shows the symbol and the log gets it (00_scope.md R15, 30_encoding.md R104). -/
def EncUnit.emitSym (u : EncUnit) (s : Symbol) : EncUnit :=
  { u with port := some s, log := u.log ++ [s] }

/-- The port of an operation that emits no symbol, `sym_valid = 0` (30_encoding.md R104). -/
def EncUnit.emitNothing (u : EncUnit) : EncUnit := { u with port := none }

/-! ### The DEC unit -/

/-- All six registers cleared: the start of a transaction and the only way out of a failed one
(41_decoder_ops.md R140, R173; 60_exceptions.md R224). -/
def DecUnit.clear (u : DecUnit) : DecUnit :=
  { u with dstage := 0#7, drem := 0#3, dres := 0#3, dfail := false, dph := .empty, dcause := none }

/-- The output port after a DEC operation: the bytes it emitted, in order, and `done` with `ok`
(00_scope.md R15; 30_encoding.md R103, R105). -/
def DecUnit.present (u : DecUnit) (bs : List Byte) (status : Option Bool) : DecUnit :=
  { u with bytes := bs, status := status, log := u.log ++ bs }

/-- `raise DecodeFail(c)`: `DFAIL` and `DCAUSE` are written and no other register; no byte, `done = 0`
(60_exceptions.md R220). -/
def DecUnit.raise (u : DecUnit) (c : Cause) : DecUnit :=
  { u with dfail := true, dcause := some c, bytes := [], status := none }

/-- The register writes of a `DEC.SYM` that succeeds (41_decoder_ops.md R156). -/
def DecUnit.accept (u : DecUnit) (stage rem : Nat) (res : BitVec 3) (ph : Phase) : DecUnit :=
  { u with dstage := BitVec.ofNat 7 stage, drem := BitVec.ofNat 3 rem, dres := res, dph := ph }

/-- The loop of R155 on `acc` and `cnt`, in at most `k` rounds: the bytes emitted, oldest first, then what
is left of `acc` and of `cnt`. -/
def flushUpTo : Nat → Nat → Nat → List Byte × Nat × Nat
  | 0, acc, cnt => ([], acc, cnt)
  | k + 1, acc, cnt =>
    if cnt < 8 then ([], acc, cnt)
    else
      let rest := flushUpTo k (acc &&& ones (cnt - 8)) (cnt - 8)
      (BitVec.ofNat 8 ((acc >>> (cnt - 8)) &&& 0xFF) :: rest.1, rest.2)

/-- The flush (41_decoder_ops.md R155): while `cnt` is 8 or more, emit the top 8 bits. Each round takes 8
from `cnt`, so `cnt` rounds are enough for any `cnt`; two are enough for the unit (`cnt` is at most 18). -/
def flush (acc cnt : Nat) : List Byte × Nat × Nat := flushUpTo cnt acc cnt

/-! ### The output ports as signals -/

/-- `sym_valid` (30_encoding.md R104). -/
def EncUnit.symValid (u : EncUnit) : Bool := u.port.isSome

/-- `byte_count`, 2 bits (30_encoding.md R105). -/
def DecUnit.byteCount (u : DecUnit) : BitVec 2 := BitVec.ofNat 2 u.bytes.length

/-- `byte0`, where `byte_count` says that it is valid (30_encoding.md R105). -/
def DecUnit.byte0 (u : DecUnit) : Option Byte := u.bytes[0]?

/-- `byte1`, where `byte_count` says that it is valid (30_encoding.md R105). -/
def DecUnit.byte1 (u : DecUnit) : Option Byte := u.bytes[1]?

/-- `done` (30_encoding.md R103). -/
def DecUnit.done (u : DecUnit) : Bool := u.status.isSome

/-! ### Units in the state, reset, host events -/

/-- The state with another ENC unit: an ENC operation touches nothing else (40_encoder_ops.md R122). -/
def State.withEnc (s : State) (u : EncUnit) : State := { s with enc := u }

/-- The state with another DEC unit: a DEC operation touches nothing else (41_decoder_ops.md R174). -/
def State.withDec (s : State) (u : DecUnit) : State := { s with dec := u }

/-- The reset input asserted (70_reset_and_hazards.md R240, R243): every register 0, nothing emitted or
reported; what was emitted before stays emitted. -/
def State.assertReset (s : State) : State :=
  (s.withEnc s.enc.clear.emitNothing).withDec (s.dec.clear.present [] none)

/-- The host's next event, taken off what it has still to issue (10_state.md R32), if there is one. -/
def State.nextEvent (s : State) : Option (HostEvent × State) :=
  match s.pending with
  | [] => none
  | e :: rest => some (e, { s with pending := rest })

/-- The state in which the host issues this event next. -/
def State.issueFirst (s : State) (e : HostEvent) : State := { s with pending := e :: s.pending }

/-- The refusal of a reserved word, by its port (30_encoding.md R98). -/
def reservedRefusal : Port → Refusal
  | .enc => .reservedEncWord
  | .dec => .reservedDecWord

end Sys2Proof.Machine
end

