-- ==== Sys2Proof/Machine/Flags.lean ====
section
/-! DEFINITION. The residue counter's advance and the flags of the DEC unit (10_state.md R27, R33 to R36):
the block has no other flag. -/

namespace Sys2Proof.Machine

/-- `res1 = (DRES + 11) mod 8` (41_decoder_ops.md R144). -/
def residueAdvance (res : BitVec 3) : BitVec 3 := BitVec.ofNat 3 ((res.toNat + 11) % 8)

/-- `DPH` after a `DEC.SYM` that does not fail (10_state.md R34, 41_decoder_ops.md R156). -/
def phaseAfter (last : Bool) : Phase := if last then .closed else .opened

/-- `ok` of `DEC.END`: not failed, and not in phase `OPEN` (41_decoder_ops.md R171). -/
def decEndOk (u : DecUnit) : Bool := !u.dfail && decide (u.dph ≠ .opened)

/-- The 2-bit code of `DPH` (10_state.md R34). -/
def Phase.code : Phase → BitVec 2
  | .empty => 0#2
  | .opened => 1#2
  | .closed => 2#2

/-- The 3-bit code `DCAUSE` holds (60_exceptions.md R210). -/
def causeCode : Option Cause → BitVec 3
  | none => 0#3
  | some .prematureSentinel => 1#3
  | some .unknownSymbol => 2#3
  | some .invalidTailPadding => 3#3
  | some .tailMisaligned => 4#3
  | some .protocolViolation => 5#3

end Sys2Proof.Machine
end

