-- ==== Sys2Proof/Machine/Operands.lean ====
section
/-! DEFINITION. Operand assembly: how groups and tail indices are put together on encode (30_encoding.md
R84 to R86) and how many bits a symbol carries on decode (R87, R88). -/

namespace Sys2Proof.Machine

/-- `need` on encode: the bits still required to complete the group (40_encoder_ops.md R111). -/
def encNeed (u : EncUnit) : Nat := 11 - u.erem.toNat

/-- The group a byte completes: the held bits, then the top `need` bits of the byte (30_encoding.md R84). -/
def completedGroup (u : EncUnit) (b : Byte) : Group :=
  BitVec.ofNat 11 (concatBits u.estage.toNat (encNeed u) (b.toNat >>> (8 - encNeed u)))

/-- The leftover bits at the top of a `w`-bit value and 1 bits below them: the final group (`w = 11`, R85)
and the tail index (`w = 3`, R86). -/
def paddedTo (w : Nat) (u : EncUnit) : BitVec w :=
  BitVec.ofNat w (concatBits u.estage.toNat (w - u.erem.toNat) (ones (w - u.erem.toNat)))

/-- What a symbol brings to the decode accumulator: `n` bits of value `v`, or a failure. -/
inductive Contribution where
  | bits (n v : Nat)
  | fail (c : Cause)
  deriving DecidableEq, Repr

/-- A primary symbol: all 11 bits if it is not last (41_decoder_ops.md R153), else the top `11 - res1`
(30_encoding.md R87, 41_decoder_ops.md R152). -/
def primaryContribution (g : Group) (last : Bool) (res1 : BitVec 3) : Contribution :=
  if last then .bits (11 - res1.toNat) (g.toNat >>> res1.toNat) else .bits 11 g.toNat

/-- A tail symbol as last symbol (30_encoding.md R88; 41_decoder_ops.md R148 to R151). -/
def tailContribution (t : TailIndex) (drem : BitVec 3) : Contribution :=
  let need := 8 - drem.toNat
  if 3 < need then .fail .tailMisaligned
  else
    let padding := 3 - need
    if trailingOnes t.toNat < padding then .fail .invalidTailPadding
    else .bits need (t.toNat >>> padding)

/-- What a symbol brings, ROM R consulted first and ROM T only on a miss at the last symbol
(41_decoder_ops.md R145 to R153; 20_memory.md R75). -/
def contribution (T : Tables) (s : Symbol) (last : Bool) (drem res1 : BitVec 3) : Contribution :=
  match romR T s with
  | .hit g => primaryContribution g last res1
  | .miss =>
    if last then
      match tailFind T s with
      | .found t => tailContribution t drem
      | .absent => .fail .unknownSymbol
    else .fail .prematureSentinel

end Sys2Proof.Machine
end

