-- ==== Sys2Proof/Machine/Dec.lean ====
section
/-! DEFINITION. The three operations of the DEC unit (41_decoder_ops.md). Each takes the tables as an
argument (00_scope.md R8); its `exec` form uses the tables of this instance. -/

namespace Sys2Proof.Machine

/-- `DEC.START` on the unit (R140). -/
def decStartUnit (u : DecUnit) : DecUnit := u.clear.present [] none

/-- The bits a symbol brings, accumulated and flushed (R154, R155), and the register writes (R156). -/
def takeBits (n v : Nat) (res1 : BitVec 3) (last : Bool) (u : DecUnit) : DecUnit :=
  let f := flush (concatBits u.dstage.toNat n v) (u.drem.toNat + n)
  (u.present f.1 none).accept f.2.1 f.2.2 res1 (phaseAfter last)

/-- `DEC.SYM s, last` on the unit (R141), the tests in the order of 60_exceptions.md R219: the two guards
(R142, R143), then the symbol's contribution (R144 to R153), which is taken or fails. -/
def decSymUnit (T : Tables) (sym : Symbol) (last : Bool) (u : DecUnit) : DecUnit :=
  if u.dfail then u.present [] none
  else if u.dph = .closed then u.raise .protocolViolation
  else
    match contribution T sym last u.drem (residueAdvance u.dres) with
    | .fail c => u.raise c
    | .bits n v => takeBits n v (residueAdvance u.dres) last u

/-- `DEC.END` on the unit (R170): the status (R171), no byte (R172), the clearing (R173). -/
def decEndUnit (u : DecUnit) : DecUnit := (u.present [] (some (decEndOk u))).clear

/-- `DEC.START`. -/
def decStartWith (_T : Tables) (s : State) : State := s.withDec (decStartUnit s.dec)

/-- `DEC.SYM s, last`. -/
def decSymWith (T : Tables) (sym : Symbol) (last : Bool) (s : State) : State :=
  s.withDec (decSymUnit T sym last s.dec)

/-- `DEC.END`. -/
def decEndWith (_T : Tables) (s : State) : State := s.withDec (decEndUnit s.dec)

/-- The meaning of `DEC.START` (R140). -/
def execDecStart (s : State) : Host.Outcome State Fault Refusal := .next (decStartWith Config.tables s)

/-- The meaning of `DEC.SYM s, last` (R141). -/
def execDecSym (sym : Symbol) (last : Bool) (s : State) : Host.Outcome State Fault Refusal :=
  .next (decSymWith Config.tables sym last s)

/-- The meaning of `DEC.END` (R170). -/
def execDecEnd (s : State) : Host.Outcome State Fault Refusal := .next (decEndWith Config.tables s)

end Sys2Proof.Machine
end

