-- ==== Sys2Proof/Machine/Enc.lean ====
section
/-! DEFINITION. The three operations of the ENC unit (40_encoder_ops.md). Each takes the tables as an
argument (00_scope.md R8); its `exec` form uses the tables of this instance. -/

namespace Sys2Proof.Machine

/-- `ENC.START` on the unit (R110). -/
def encStartUnit (u : EncUnit) : EncUnit := u.clear.emitNothing

/-- `ENC.BYTE b` on the unit (R111): the completing arm (R112) and the absorbing arm (R113). -/
def encByteUnit (T : Tables) (b : Byte) (u : EncUnit) : EncUnit :=
  if encNeed u ≤ 8 then
    let keep := 8 - encNeed u
    (u.emitSym (romP T (completedGroup u b))).write (b.toNat &&& ones keep) keep
  else
    u.emitNothing.write (concatBits u.estage.toNat 8 b.toNat) (u.erem.toNat + 8)

/-- `ENC.END` on the unit (R116): the empty arm (R117), the tail arm (R118), the final-primary arm (R119),
and the clearing (R120). -/
def encEndUnit (T : Tables) (u : EncUnit) : EncUnit :=
  if u.erem.toNat = 0 then u.emitNothing.clear
  else if u.erem.toNat ≤ 3 then (u.emitSym (romT T (paddedTo 3 u))).clear
  else (u.emitSym (romP T (paddedTo 11 u))).clear

/-- `ENC.START`. -/
def encStartWith (_T : Tables) (s : State) : State := s.withEnc (encStartUnit s.enc)

/-- `ENC.BYTE b`. -/
def encByteWith (T : Tables) (b : Byte) (s : State) : State := s.withEnc (encByteUnit T b s.enc)

/-- `ENC.END`. -/
def encEndWith (T : Tables) (s : State) : State := s.withEnc (encEndUnit T s.enc)

/-- The meaning of `ENC.START` (R110). -/
def execEncStart (s : State) : Host.Outcome State Fault Refusal := .next (encStartWith Config.tables s)

/-- The meaning of `ENC.BYTE b` (R111). -/
def execEncByte (b : Byte) (s : State) : Host.Outcome State Fault Refusal :=
  .next (encByteWith Config.tables b s)

/-- The meaning of `ENC.END` (R116). -/
def execEncEnd (s : State) : Host.Outcome State Fault Refusal := .next (encEndWith Config.tables s)

end Sys2Proof.Machine
end

