-- ==== Sys2Proof/Machine/Step.lean ====
section
/-! DEFINITION. One step: the host issues its next event and the block performs it in full
(10_state.md R32, 70_reset_and_hazards.md R248). -/

namespace Sys2Proof.Machine

/-- One step. With nothing issued the block stays as it is (60_exceptions.md R218, 70_reset_and_hazards.md
R252); the reset input is R240; a command word runs the operation it decodes to, or is refused (30_encoding.md
R98). -/
def step (s : State) : Host.Outcome State Fault Refusal :=
  match s.nextEvent with
  | none => .next s
  | some (.reset, t) => .next t.assertReset
  | some (.command w, t) =>
    match Sys2Proof.decode w with
    | .op i => exec i t
    | .reserved p => .refused (reservedRefusal p)

/-- The state in which the very next step runs the operation whose bits are `w`: the host issues that
command word first, on the port whose words are `nbits` long, and the rest after it. A value that is no word
of the port cannot be issued and changes nothing. -/
def State.withFetchWord (s : State) (nbits w : Nat) : State :=
  match Sys2Proof.tableWord nbits w with
  | some c => s.issueFirst (.command c)
  | none => s

end Sys2Proof.Machine
end

