-- ==== Sys2Proof/Machine/WholeBuffer.lean ====
section
/-! DEFINITION. Sequences of operations and the two whole-buffer functions made of them
(42_whole_buffer_functions.md R180, R185; 30_encoding.md R102). They take the tables as an argument, so
that the table invariants can be hypotheses (93_implementation_defined.md U4). -/

namespace Sys2Proof.Machine

/-- The effect of an operation with given tables: what `exec` does is this with the tables of the instance. -/
def applyOp (T : Tables) (i : Instr) (s : State) : State :=
  match i with
  | .encStart => encStartWith T s
  | .encByte b => encByteWith T b s
  | .encEnd => encEndWith T s
  | .decStart => decStartWith T s
  | .decSym sym last => decSymWith T sym last s
  | .decEnd => decEndWith T s

/-- The effect of operations issued one after another (70_reset_and_hazards.md R248). -/
def runOps (T : Tables) (ops : List Instr) (s : State) : State :=
  ops.foldl (fun t i => applyOp T i t) s

/-- Operations issued one after another through `exec`, up to the first that does not answer a next state. -/
def execAll : List Instr → State → Host.Outcome State Fault Refusal
  | [], s => .next s
  | i :: rest, s =>
    match exec i s with
    | .next t => execAll rest t
    | .fault f => .fault f
    | .refused r => .refused r

/-- The pseudo-operation `ENCODE` (30_encoding.md R102). -/
def encodeOps (bs : List Byte) : List Instr :=
  .encStart :: (bs.map Instr.encByte ++ [.encEnd])

/-- The `DEC.SYM` operations of a symbol string: `last = 1` on the final symbol and on no other
(30_encoding.md R97, 70_reset_and_hazards.md R249). -/
def symbolOps : List Symbol → List Instr
  | [] => []
  | [s] => [.decSym s true]
  | s :: t :: rest => .decSym s false :: symbolOps (t :: rest)

/-- The pseudo-operation `DECODE` (30_encoding.md R102). -/
def decodeOps (ss : List Symbol) : List Instr :=
  .decStart :: (symbolOps ss ++ [.decEnd])

/-- `encode(bytes)` performed from the state `s`: the symbols emitted, in order (R180). -/
def encodeFrom (T : Tables) (s : State) (bs : List Byte) : List Symbol :=
  (runOps T (encodeOps bs) s).enc.log.drop s.enc.log.length

/-- `encode(bytes)` (R180). -/
def encodeBytes (T : Tables) (bs : List Byte) : List Symbol := encodeFrom T State.reset bs

/-- `decode(symbols)` performed from the state `s`: the bytes emitted, in order, if `DEC.END` reports `OK`;
nothing if it reports `FAIL` (R185). -/
def decodeFrom (T : Tables) (s : State) (ss : List Symbol) : Option (List Byte) :=
  let t := runOps T (decodeOps ss) s
  if t.dec.status = some true then some (t.dec.log.drop s.dec.log.length) else none

/-- `decode(symbols)` (R185). -/
def decodeSymbols (T : Tables) (ss : List Symbol) : Option (List Byte) := decodeFrom T State.reset ss

end Sys2Proof.Machine
end

