-- ==== Sys2Proof/Machine/Assembler.lean ====
section
/-! DEFINITION. The assembler: from lines of text to operations (30_encoding.md R100 to R102). -/

namespace Sys2Proof.Machine

/-- The symbol an operand stands for, once the tables are given (R101). -/
def symbolOf (T : Tables) : SymOperand → Symbol
  | .primary g => T.primary (BitVec.ofNat 11 g)
  | .tail i => T.tail (BitVec.ofNat 3 i)
  | .literal v => BitVec.ofNat 21 v

/-- The operations a line stands for; a line whose operands are out of range stands for none (R100 to R102). -/
def assemble (T : Tables) (l : SourceLine) : Option (List Instr) :=
  if l.wellFormed then
    match l with
    | .encStart => some [.encStart]
    | .encByte b => some [.encByte (BitVec.ofNat 8 b)]
    | .encEnd => some [.encEnd]
    | .decStart => some [.decStart]
    | .decSym s last => some [.decSym (symbolOf T s) last]
    | .decEnd => some [.decEnd]
    | .encode bs => some (encodeOps (bs.map (BitVec.ofNat 8)))
    | .decode ss => some (decodeOps (ss.map (symbolOf T)))
  else none

/-- Leading and trailing spaces taken off. -/
def trimSpaces (cs : List Char) : List Char :=
  ((cs.dropWhile (· = ' ')).reverse.dropWhile (· = ' ')).reverse

/-- The value of a decimal digit, and of a hexadecimal one in base 16. -/
def digitValue (base : Nat) (c : Char) : Option Nat :=
  if '0' ≤ c ∧ c ≤ '9' then some (c.toNat - 48)
  else if base = 16 ∧ 'A' ≤ c ∧ c ≤ 'F' then some (c.toNat - 55)
  else if base = 16 ∧ 'a' ≤ c ∧ c ≤ 'f' then some (c.toNat - 87)
  else none

/-- The value of digits in a base, read after the digits whose value is `acc`. -/
def digitsFrom (base acc : Nat) : List Char → Option Nat
  | [] => some acc
  | c :: rest =>
    match digitValue base c with
    | some d => digitsFrom base (base * acc + d) rest
    | none => none

/-- A number of at least one digit. -/
def numberIn (base : Nat) (cs : List Char) : Option Nat :=
  if cs.isEmpty then none else digitsFrom base 0 cs

/-- A literal: hexadecimal with `0x`, else decimal (R100). -/
def parseNumber : List Char → Option Nat
  | '0' :: 'x' :: rest => numberIn 16 rest
  | cs => numberIn 10 cs

/-- A literal up to the closing bracket that ends the operand (R101). -/
def parseIndex (cs : List Char) : Option Nat :=
  match cs.reverse with
  | ']' :: rest => parseNumber rest.reverse
  | _ => none

/-- A symbol operand: `P[g]`, `T[i]`, `U+<hex>` (R101). R101 says "decimal or hexadecimal" of `g` only; that `i` may
be written in either way too is the model's choice (DESIGN CHOICE, log entry 14). -/
def parseSymbol : List Char → Option SymOperand
  | 'P' :: '[' :: rest => (parseIndex rest).map .primary
  | 'T' :: '[' :: rest => (parseIndex rest).map .tail
  | 'U' :: '+' :: rest => (numberIn 16 rest).map .literal
  | _ => none

/-- Text cut at its commas. -/
def splitCommas : List Char → List (List Char)
  | [] => [[]]
  | c :: rest =>
    match c, splitCommas rest with
    | ',', parts => [] :: parts
    | c, part :: parts => (c :: part) :: parts
    | c, [] => [[c]]

/-- The operands of a pseudo-operation, separated by commas, possibly none (R102). -/
def parseList {α : Type} (one : List Char → Option α) (cs : List Char) : Option (List α) :=
  if cs.isEmpty then some [] else (splitCommas cs).mapM fun part => one (trimSpaces part)

/-- One line of text: the mnemonic first, operands after a space, `;` to the end of the line a comment
(R100). A line with nothing else is no operation: `some none`. A line that is none of these: `none`. -/
def parseLine (line : String) : Option (Option SourceLine) :=
  let code := trimSpaces (line.toList.takeWhile (· ≠ ';'))
  let name := code.takeWhile (· ≠ ' ')
  let args := trimSpaces (code.dropWhile (· ≠ ' '))
  let plain (l : SourceLine) : Option (Option SourceLine) := if args.isEmpty then some (some l) else none
  if code.isEmpty then some none
  else if name = "ENC.START".toList then plain .encStart
  else if name = "ENC.BYTE".toList then (parseNumber args).map fun b => some (.encByte b)
  else if name = "ENC.END".toList then plain .encEnd
  else if name = "DEC.START".toList then plain .decStart
  else if name = "DEC.SYM".toList then (parseSymbol args).map fun s => some (.decSym s false)
  else if name = "DEC.SYM.L".toList then (parseSymbol args).map fun s => some (.decSym s true)
  else if name = "DEC.END".toList then plain .decEnd
  else if name = "ENCODE".toList then (parseList parseNumber args).map fun bs => some (.encode bs)
  else if name = "DECODE".toList then (parseList parseSymbol args).map fun ss => some (.decode ss)
  else none

/-- A text of lines assembled, in order; `none` where a line is not assembler source. -/
def assembleText (T : Tables) : List String → Option (List Instr)
  | [] => some []
  | line :: rest =>
    match parseLine line, assembleText T rest with
    | some none, some ops => some ops
    | some (some l), some ops => (assemble T l).map (· ++ ops)
    | _, _ => none

end Sys2Proof.Machine
end

