-- ==== Sys2Proof/Machine/ClosedForm.lean ====
section
/-! DEFINITION. The closed forms of `encode` and `decode` (42_whole_buffer_functions.md R181, R186), written
over bit strings without any accumulator: what the operations of the two units are to agree with. -/

namespace Sys2Proof.Machine

/-- The `w`-bit binary form of `v`, most significant bit first (20_memory.md R63, R64). -/
def bitsOf (w v : Nat) : List Bool := (List.range w).map fun m => v.testBit (w - 1 - m)

/-- The number whose binary form is a bit string, most significant bit first. -/
def numOf (bits : List Bool) : Nat := bits.foldl (fun a d => 2 * a + d.toNat) 0

/-- The bit string of a byte sequence: bit `8q + m` is bit `7 - m` of byte `q` (20_memory.md R63, 30_encoding.md R83). -/
def bitsOfBytes (bs : List Byte) : List Bool := bs.flatMap fun b => bitsOf 8 b.toNat

/-- The bytes of a bit string of `8q` bits, most significant bit first (R186). -/
def bytesOfBits (bits : List Bool) : List Byte :=
  (List.range (bits.length / 8)).map fun q => BitVec.ofNat 8 (numOf ((bits.drop (8 * q)).take 8))

/-- Full group number `j` of a bit string (30_encoding.md R82, R83). -/
def fullGroup (bits : List Bool) (j : Nat) : Group := BitVec.ofNat 11 (numOf ((bits.drop (11 * j)).take 11))

/-- The symbol of the leftover bits `L`, `r` of them (R181). -/
def finalSymbols (T : Tables) (r L : Nat) : List Symbol :=
  if r = 0 then []
  else if r ≤ 3 then [T.tail (BitVec.ofNat 3 (L * 2 ^ (3 - r) + (2 ^ (3 - r) - 1)))]
  else [T.primary (BitVec.ofNat 11 (L * 2 ^ (11 - r) + (2 ^ (11 - r) - 1)))]

/-- The closed form of `encode` (R181). -/
def encodeClosed (T : Tables) (bs : List Byte) : List Symbol :=
  let bits := bitsOfBytes bs
  let m := 8 * bs.length / 11
  let r := 8 * bs.length % 11
  (List.range m).map (fun j => T.primary (fullGroup bits j)) ++ finalSymbols T r (numOf (bits.drop (11 * m)))

/-- The groups of a symbol string, if all its symbols are primary. -/
def groupsOf (T : Tables) : List Symbol → Option (List Group)
  | [] => some []
  | s :: rest =>
    match romR T s, groupsOf T rest with
    | .hit g, some gs => some (g :: gs)
    | _, _ => none

/-- The bits that the groups of non-last symbols carry, 11 each (R186). -/
def bitsOfGroups (gs : List Group) : List Bool := gs.flatMap fun g => bitsOf 11 g.toNat

/-- The bits the last symbol of a string of `k` symbols carries (R186 (a), (b), (c)). -/
def lastBits (T : Tables) (k : Nat) (s : Symbol) : Option (List Bool) :=
  match romR T s with
  | .hit g => some ((bitsOf 11 g.toNat).take (11 - 11 * k % 8))
  | .miss =>
    match tailFind T s with
    | .absent => none
    | .found t =>
      let d := 11 * (k - 1) % 8
      if d ≤ 4 then none
      else
        let need := 8 - d
        let padding := 3 - need
        if t.toNat &&& ones padding ≠ ones padding then none
        else some ((bitsOf 3 t.toNat).take need)

/-- The closed form of `decode` (R186). -/
def decodeClosed (T : Tables) (ss : List Symbol) : Option (List Byte) :=
  match ss.getLast? with
  | none => some []
  | some s =>
    match groupsOf T ss.dropLast, lastBits T ss.length s with
    | some gs, some bits => some (bytesOfBits (bitsOfGroups gs ++ bits))
    | _, _ => none

end Sys2Proof.Machine
end

