-- ==== Sys2Proof/Safety.lean ====
section
/-! DEFINITION. What a safe run is, in the terms the claims use: the invariants of the registers
(10_state.md R23, R28, R29, R34, R35), and the host's duty to mark the last symbol (70_reset_and_hazards.md
R249). -/

namespace Sys2Proof.Machine

/-- The ENC invariant (R23): `EREM` is 0 to 10 and `ESTAGE` holds no more than `EREM` bits. -/
abbrev EncUnit.Inv (u : EncUnit) : Prop := u.erem.toNat ≤ 10 ∧ u.estage.toNat < 2 ^ u.erem.toNat

/-- The DEC invariant: what holds of the six registers and of the ports between operations. -/
structure DecUnit.Inv (u : DecUnit) : Prop where
  /-- R28. -/
  stage_lt : u.dstage.toNat < 2 ^ u.drem.toNat
  /-- R35: a cause is held exactly while `DFAIL = 1`. -/
  fail_iff : u.dfail = true ↔ u.dcause ≠ none
  /-- R29: until the last symbol `DRES` and `DREM` are the same number. -/
  res_eq : u.dph ≠ .closed → u.dres = u.drem
  /-- R34: in phase `EMPTY` nothing has been accumulated. -/
  empty_rem : u.dph = .empty → u.drem = 0#3
  /-- R157, R187: after the last symbol no bit is held. -/
  closed_rem : u.dph = .closed → u.drem = 0#3
  /-- R215: `DEC.SYM` detects a protocol violation in phase `CLOSED`, and nothing else there. -/
  closed_cause : u.dph = .closed → u.dcause = none ∨ u.dcause = some .protocolViolation
  /-- R215: and only there. -/
  protocol_closed : u.dcause = some .protocolViolation → u.dph = .closed
  /-- R213: a bad tail padding needs `padding` 1 or 2. -/
  padding_rem : u.dcause = some .invalidTailPadding → 6 ≤ u.drem.toNat
  /-- R214: a misaligned tail needs more than 3 bits. -/
  misaligned_rem : u.dcause = some .tailMisaligned → u.drem.toNat ≤ 4
  /-- 30_encoding.md R105: two byte slots are enough. -/
  bytes_le : u.bytes.length ≤ 2
  /-- R172: no byte comes with a status. -/
  status_bytes : u.status ≠ none → u.bytes = []

/-- The invariant of the block. -/
structure State.Inv (s : State) : Prop where
  enc : s.enc.Inv
  dec : s.dec.Inv

/-- Both units clear: every register 0, as after reset or after the start operations (R40). -/
def State.Clear (s : State) : Prop :=
  s.enc.estage = 0#10 ∧ s.enc.erem = 0#4 ∧ s.dec.dstage = 0#7 ∧ s.dec.drem = 0#3 ∧ s.dec.dres = 0#3 ∧
    s.dec.dfail = false ∧ s.dec.dph = .empty ∧ s.dec.dcause = none

/-- Whether operations mark the last symbol as R249 asks, begun in a phase: no `DEC.SYM` after one with
`last = 1`, no `DEC.END` after symbols of which none had it. -/
def wellMarkedFrom : Phase → List Instr → Bool
  | _, [] => true
  | ph, .encStart :: rest => wellMarkedFrom ph rest
  | ph, .encByte _ :: rest => wellMarkedFrom ph rest
  | ph, .encEnd :: rest => wellMarkedFrom ph rest
  | _, .decStart :: rest => wellMarkedFrom .empty rest
  | ph, .decSym _ last :: rest => decide (ph ≠ .closed) && wellMarkedFrom (phaseAfter last) rest
  | ph, .decEnd :: rest => decide (ph ≠ .opened) && wellMarkedFrom .empty rest

/-- Operations issued from a clear unit that mark the last symbol as R249 asks. -/
def wellMarked (ops : List Instr) : Bool := wellMarkedFrom .empty ops

/-- The command words of operations, as events the host issues. -/
def issued (ops : List Instr) : List HostEvent := ops.map fun i => .command (Sys2Proof.encode i)

/-- The operations among these that go to one port (30_encoding.md R91). -/
def opsOf (p : Port) (ops : List Instr) : List Instr := ops.filter fun i => decide (i.port = p)

end Sys2Proof.Machine
end

