-- ==== Sys2Proof/Certificates/Slice0/Obligations.lean ====
section
/-! DEFINITION. The statements about the block, file by file of spec/. Where a statement needs the table
invariants (20_memory.md R52, R53, R55), or a symbol that is in no table, it speaks of given tables `T` and
of `applyOp T`: `exec` is that with the tables of the instance (`ExecIsApplyOpOfTheInstance`). A statement that gives
a whole next state also says that the other unit's output port and the stream stay as they were: that a port keeps
its output while the other unit operates is the model's choice (log entry 8), and the stream is the model's own
field (log entry 1). -/

open Sys2Proof Sys2Proof.Machine

/-! ### Command words (30_encoding.md Part B) -/

/-- No operand bit of a command word is dropped: the decoder reads back every operation from its canonical
word (30_encoding.md R92 to R97). -/
def Obligations.DecodeInvertsEncode : Prop :=
  ∀ i : Instr, decode (encode i) = .op i

/-- A word that decodes differs from the canonical word of its operation in the ignored fields only: where
the operation has operands, not at all (30_encoding.md R92, R93, R96). -/
def Obligations.DecodedWordIsCanonicalUpToIgnoredFields : Prop :=
  ∀ (w : CmdWord) (i : Instr), decode w = .op i →
    (encode i).port = w.port ∧
    match i with
    | .encByte _ => encode i = w
    | .decSym _ _ => encode i = w
    | .encStart => (encode i).toNat = w.toNat / 2 ^ 8 * 2 ^ 8
    | .encEnd => (encode i).toNat = w.toNat / 2 ^ 8 * 2 ^ 8
    | .decStart => (encode i).toNat = w.toNat / 2 ^ 22 * 2 ^ 22
    | .decEnd => (encode i).toNat = w.toNat / 2 ^ 22 * 2 ^ 22

/-- The decoder is the one the masks and matches of R94 and R95 give: a word decodes to a row's operation
exactly when it matches the row, and every word matches exactly one row of its port. -/
def Obligations.DecoderFollowsOpcodeTable : Prop :=
  ∀ w : CmdWord,
    (opcodeRows.filter fun r => r.matchesWord w).length = 1 ∧
    ∀ r ∈ opcodeRows, r.matchesWord w = true ↔ r.port = w.port ∧ (decode w).rowName = r.mnemonic

/-- Words of the programs of 95_test_vectors.md section 5 decode to the operations written beside them. That 16 bits
mean the ENC port and 24 the DEC port is the model's choice (log entry 13). -/
def Obligations.ProgramWordsDecode : Prop :=
  decodeTableWord 16 0x000 = some .encStart ∧ decodeTableWord 16 0x112 = some (.encByte 0x12#8) ∧
  decodeTableWord 16 0x1DE = some (.encByte 0xDE#8) ∧ decodeTableWord 16 0x200 = some .encEnd ∧
  decodeTableWord 24 0x000000 = some .decStart ∧
  decodeTableWord 24 0x4016F5 = some (.decSym 0x16F5#21 false) ∧
  decodeTableWord 24 0x6015DF = some (.decSym 0x15DF#21 true) ∧
  decodeTableWord 24 0x800000 = some .decEnd ∧ decodeTableWord 16 0x300 = none ∧
  decodeTableWord 24 0xC00000 = none

/-- A step is refused exactly when the word issued has opcode `11`, with the refusal of its port (R98). What is issued
stands in `pending`, the model's own field (log entry 1). -/
def Obligations.StepRefusesExactlyReservedWords : Prop :=
  ∀ (s : State) (r : Refusal), step s = .refused r ↔
    (∃ (w : EncWord) (rest : List HostEvent), s.pending = .command (.enc w) :: rest ∧
      w.toNat / 2 ^ 8 = 3 ∧ r = .reservedEncWord) ∨
    (∃ (w : DecWord) (rest : List HostEvent), s.pending = .command (.dec w) :: rest ∧
      w.toNat / 2 ^ 22 = 3 ∧ r = .reservedDecWord)

/-- A stored entry of ROM R reads back as what it stands for: bit 11 is set for `Miss` alone, and the words
`0x800` to `0xFFE` are never stored; whatever the word, bit 11 set is what reads as `Miss` (20_memory.md R61). -/
def Obligations.ReverseRomWordReadsBack : Prop :=
  (∀ e : RevEntry, RevEntry.ofWord e.toWord = e ∧ (e.toWord.getLsbD 11 = true ↔ e = .miss) ∧
    (e = .miss → e.toWord = 0xFFF#12) ∧ (∀ g, e = .hit g → e.toWord.toNat = g.toNat)) ∧
  ∀ w : BitVec 12, RevEntry.ofWord w = .miss ↔ w.getLsbD 11 = true

/-- The expansions of the pseudo-operations `ENCODE` and `DECODE` (R102). -/
def Obligations.PseudoOperationsExpand : Prop :=
  ∀ T : Tables,
    (∀ bs : List Nat, (∀ b ∈ bs, b < 256) →
      assemble T (.encode bs) =
        some ([.encStart] ++ bs.map (fun b => .encByte (BitVec.ofNat 8 b)) ++ [.encEnd])) ∧
    assemble T (.decode []) = some [.decStart, .decEnd] ∧
    (∀ (ss : List SymOperand) (x : SymOperand), (∀ s ∈ ss, s.wellFormed = true) → x.wellFormed = true →
      assemble T (.decode (ss ++ [x])) =
        some ([.decStart] ++ ss.map (fun s => .decSym (symbolOf T s) false) ++
          [.decSym (symbolOf T x) true, .decEnd]))

/-! ### Steps, reset, the host's events -/

/-- A step on an issued command word is `exec` of the operation it decodes to, at the state in which the
word has been taken off what the host has still to issue (10_state.md R32; the stream is the model's own
field, log entry 1). -/
def Obligations.StepRunsDecodedOperation : Prop :=
  ∀ (s : State) (w : CmdWord) (rest : List HostEvent) (i : Instr),
    s.pending = .command w :: rest → decode w = .op i → step s = exec i { s with pending := rest }

/-- A word numbered as the opcode table numbers it, placed where a step takes its next word, is run by the
very next step, at the state it was placed in (log entries 1, 2 and 13). -/
def Obligations.PlacedWordRunsNext : Prop :=
  ∀ (s : State) (nbits w : Nat) (i : Instr), decodeTableWord nbits w = some i →
    step (s.withFetchWord nbits w) = exec i s

/-- With nothing issued the block stays as it is (log entry 3, DEDUCED from 60_exceptions.md R218 and
70_reset_and_hazards.md R252). -/
def Obligations.StepWithNothingIssuedChangesNothing : Prop :=
  ∀ s : State, s.pending = [] → step s = .next s

/-- The reset input (R240): every register of both units 0, nothing emitted and nothing reported. What was
emitted before stays emitted (R243). That reset is an event among the issued ones is the model's choice (log entries
1 and 4). -/
def Obligations.ResetInputClearsBothUnits : Prop :=
  ∀ (s : State) (rest : List HostEvent), s.pending = .reset :: rest →
    ∃ t, step s = .next t ∧ t.Clear ∧ t.enc.port = none ∧ t.dec.bytes = [] ∧ t.dec.status = none ∧
      t.enc.log = s.enc.log ∧ t.dec.log = s.dec.log ∧ t.pending = rest

/-- Reset in the middle of a transaction abandons it exactly as `ENC.START` and `DEC.START` do: held bits are
dropped, a pending failure is forgotten, and outputs already emitted stay emitted (R243). That the ENC unit's output
port stays as `ENC.START` left it while `DEC.START` runs (log entry 8), and that the stream stays as it was (log entry
1), is the model's choice. -/
def Obligations.ResetInputEqualsBothStarts : Prop :=
  ∀ (T : Tables) (s : State), s.assertReset = runOps T [.encStart, .decStart] s ∧ s.assertReset.Clear ∧
    s.assertReset.enc.log = s.enc.log ∧ s.assertReset.dec.log = s.dec.log

/-- The state after reset: every register 0 and no valid output (R40, R241). -/
def Obligations.ResetStateIsClear : Prop :=
  State.reset.Clear ∧ State.reset.enc.symValid = false ∧ State.reset.dec.byteCount = 0#2 ∧
    State.reset.dec.done = false

/-- The state after reset meets the invariant (10_state.md R23, R28). -/
def Obligations.ResetStateMeetsInvariant : Prop := State.reset.Inv

/-- Every step keeps the invariant of both units: `EREM` is 0 to 10, no register holds more bits than its
count says, `DRES = DREM` until the last symbol, no bit is held after it, a cause is held exactly while
`DFAIL = 1`, and each cause only where it can arise (10_state.md R23, R28, R29, R34, R35). -/
def Obligations.EveryStepKeepsInvariant : Prop :=
  ∀ s t : State, s.Inv → step s = .next t → t.Inv

/-- Every operation completes from every state, and `exec` is `applyOp` with the tables of the instance. -/
def Obligations.ExecIsApplyOpOfTheInstance : Prop :=
  ∀ (i : Instr) (s : State), exec i s = .next (applyOp Config.tables i s)

/-- Operations issued one after another complete, whatever they are: no sequence is illegal
(40_encoder_ops.md R122, 41_decoder_ops.md R174). -/
def Obligations.EveryOperationSequenceCompletes : Prop :=
  ∀ (ops : List Instr) (s : State), execAll ops s = .next (runOps Config.tables ops s)

/-! ### The ENC unit (40_encoder_ops.md) -/

/-- `ENC.START`, every word of the ENC port with `op = 00`, empties the accumulator and emits nothing; nothing
else changes (R110).
That the DEC unit's output port (log entry 8) and the stream (log entry 1) stay as they were is the model's choice. -/
def Obligations.EncStartEmptiesAccumulator : Prop :=
  (∀ w : EncWord, w.toNat / 2 ^ 8 = 0 → decode (.enc w) = .op .encStart) ∧
  ∀ s : State, exec .encStart s =
    .next { s with enc := { estage := 0#10, erem := 0#4, port := none, log := s.enc.log } }

/-- `ENC.BYTE`, completing arm (R112): the group is the held bits, then the top `11 - EREM` bits of the
byte; its primary symbol is emitted; the low `EREM - 3` bits of the byte are held.
That the DEC unit's output port (log entry 8) and the stream (log entry 1) stay as they were is the model's choice. -/
def Obligations.EncByteCompletesGroup : Prop :=
  ∀ (s : State) (b : Byte), s.enc.Inv → 3 ≤ s.enc.erem.toNat →
    let e := s.enc.erem.toNat
    let g := s.enc.estage.toNat * 2 ^ (11 - e) + b.toNat / 2 ^ (e - 3)
    g < 2048 ∧
    exec (.encByte b) s = .next { s with enc :=
      { estage := BitVec.ofNat 10 (b.toNat % 2 ^ (e - 3)), erem := BitVec.ofNat 4 (e - 3),
        port := some (Config.primaryTable (BitVec.ofNat 11 g)),
        log := s.enc.log ++ [Config.primaryTable (BitVec.ofNat 11 g)] } }

/-- `ENC.BYTE`, absorbing arm (R113): the byte is shifted in whole, the value fits the register, and nothing
is emitted.
That the DEC unit's output port (log entry 8) and the stream (log entry 1) stay as they were is the model's choice. -/
def Obligations.EncByteAbsorbsByte : Prop :=
  ∀ (s : State) (b : Byte), s.enc.Inv → s.enc.erem.toNat ≤ 2 →
    s.enc.estage.toNat * 256 + b.toNat < 1024 ∧
    exec (.encByte b) s = .next { s with enc :=
      { estage := BitVec.ofNat 10 (s.enc.estage.toNat * 256 + b.toNat),
        erem := BitVec.ofNat 4 (s.enc.erem.toNat + 8), port := none, log := s.enc.log } }

/-- `ENC.BYTE` loses no bit and uses none twice (R112): the bits held before, then the byte, are the group
emitted (if there is one), then the bits held after. -/
def Obligations.EncByteConservesBits : Prop :=
  ∀ (s t : State) (b : Byte), s.enc.Inv → exec (.encByte b) s = .next t →
    ∃ gs : List Group, gs.length ≤ 1 ∧ t.enc.log = s.enc.log ++ gs.map Config.primaryTable ∧
      t.enc.erem.toNat + 11 * gs.length = s.enc.erem.toNat + 8 ∧
      gs.foldl (fun a g => a * 2048 + g.toNat) 0 * 2 ^ t.enc.erem.toNat + t.enc.estage.toNat =
        s.enc.estage.toNat * 256 + b.toNat

/-- `ENC.END`, empty arm (R117): nothing is emitted.
That the DEC unit's output port (log entry 8) and the stream (log entry 1) stay as they were is the model's choice. -/
def Obligations.EncEndOfEmptyAccumulator : Prop :=
  ∀ s : State, s.enc.erem = 0#4 → exec .encEnd s =
    .next { s with enc := { estage := 0#10, erem := 0#4, port := none, log := s.enc.log } }

/-- `ENC.END`, tail arm (R118): 1 to 3 leftover bits, padded with 1 bits to 3, go out as a tail symbol, and
the accumulator is emptied (R120).
That the DEC unit's output port (log entry 8) and the stream (log entry 1) stay as they were is the model's choice. -/
def Obligations.EncEndSendsTailSymbol : Prop :=
  ∀ s : State, s.enc.Inv → 1 ≤ s.enc.erem.toNat → s.enc.erem.toNat ≤ 3 →
    let p := 2 ^ (3 - s.enc.erem.toNat)
    let i := s.enc.estage.toNat * p + (p - 1)
    i < 8 ∧
    exec .encEnd s = .next { s with enc :=
      { estage := 0#10, erem := 0#4, port := some (Config.tailTable (BitVec.ofNat 3 i)),
        log := s.enc.log ++ [Config.tailTable (BitVec.ofNat 3 i)] } }

/-- `ENC.END`, final-primary arm (R119): 4 to 10 leftover bits, padded with 1 bits to 11, go out as a
primary symbol, and the accumulator is emptied (R120).
That the DEC unit's output port (log entry 8) and the stream (log entry 1) stay as they were is the model's choice. -/
def Obligations.EncEndSendsFinalPrimarySymbol : Prop :=
  ∀ s : State, s.enc.Inv → 4 ≤ s.enc.erem.toNat →
    let p := 2 ^ (11 - s.enc.erem.toNat)
    let g := s.enc.estage.toNat * p + (p - 1)
    g < 2048 ∧
    exec .encEnd s = .next { s with enc :=
      { estage := 0#10, erem := 0#4, port := some (Config.primaryTable (BitVec.ofNat 11 g)),
        log := s.enc.log ++ [Config.primaryTable (BitVec.ofNat 11 g)] } }

/-- The frame of the ENC operations: no DEC register and no byte the DEC unit emitted changes (R122); the ENC log
gets what the ENC port shows, one symbol at most (30_encoding.md R104). That the DEC unit's output port stays as it
was is the model's choice (log entry 8), and so is the stream of what the host has still to issue, which stays as it
was (log entry 1). The block has no writable memory (20_memory.md R50). -/
def Obligations.EncOperationsFrame : Prop :=
  ∀ (i : Instr) (s t : State), i.port = .enc → exec i s = .next t →
    t.dec = s.dec ∧ t.pending = s.pending ∧ t.enc.log = s.enc.log ++ t.enc.port.toList ∧
    (i = .encStart → t.enc.port = none)

/-! ### The DEC unit (41_decoder_ops.md) -/

/-- `DEC.START`, every word of the DEC port with `op = 00`, clears the six registers and emits and reports
nothing; nothing else changes (R140).
That the ENC unit's output port (log entry 8) and the stream (log entry 1) stay as they were is the model's choice. -/
def Obligations.DecStartClearsUnit : Prop :=
  (∀ w : DecWord, w.toNat / 2 ^ 22 = 0 → decode (.dec w) = .op .decStart) ∧
  ∀ s : State, exec .decStart s =
    .next { s with dec :=
      { dstage := 0#7, drem := 0#3, dres := 0#3, dfail := false, dph := .empty, dcause := none,
        bytes := [], status := none, log := s.dec.log } }

/-- `DEC.SYM` of a primary symbol that is not last (R153 to R156): all 11 bits are taken; the bytes they
complete are emitted, oldest first; the rest is held; the residue advances by 3 modulo 8; the phase is OPEN.
That the ENC unit's output port (log entry 8) and the stream (log entry 1) stay as they were is the model's choice. -/
def Obligations.DecSymTakesPrimarySymbol : Prop :=
  ∀ (s : State) (sym : Symbol) (g : Group), s.dec.Inv → s.dec.dfail = false → s.dec.dph ≠ .closed →
    romR Config.tables sym = .hit g →
    let a := s.dec.dstage.toNat * 2048 + g.toNat
    let c := s.dec.drem.toNat + 11
    let out := if c < 16 then [BitVec.ofNat 8 (a / 2 ^ (c - 8))]
      else [BitVec.ofNat 8 (a / 2 ^ (c - 8)), BitVec.ofNat 8 (a / 2 ^ (c - 16) % 256)]
    a / 2 ^ (c - 8) < 256 ∧
    exec (.decSym sym false) s = .next { s with dec :=
      { s.dec with
        dstage := BitVec.ofNat 7 (a % 2 ^ (c % 8)), drem := BitVec.ofNat 3 (c % 8),
        dres := BitVec.ofNat 3 ((s.dec.dres.toNat + 3) % 8), dph := .opened,
        bytes := out, status := none, log := s.dec.log ++ out } }

/-- `DEC.SYM` of a primary symbol that is last (R152): with `res1 = (DREM + 3) mod 8` it brings the top
`11 - res1` bits, which complete one byte when `DREM` is 0 to 4 and two when it is 5 to 7; no bit is held
after it; the phase is CLOSED.
That the ENC unit's output port (log entry 8) and the stream (log entry 1) stay as they were is the model's choice. -/
def Obligations.DecSymTakesLastPrimarySymbol : Prop :=
  ∀ (s : State) (sym : Symbol) (g : Group), s.dec.Inv → s.dec.dfail = false → s.dec.dph ≠ .closed →
    romR Config.tables sym = .hit g →
    let d := s.dec.drem.toNat
    let res1 := (d + 3) % 8
    let x := s.dec.dstage.toNat * 2 ^ (11 - res1) + g.toNat / 2 ^ res1
    let out := if d ≤ 4 then [BitVec.ofNat 8 x] else [BitVec.ofNat 8 (x / 256), BitVec.ofNat 8 (x % 256)]
    (d ≤ 4 → x < 256) ∧ (5 ≤ d → x < 65536) ∧
    exec (.decSym sym true) s = .next { s with dec :=
      { s.dec with
        dstage := 0#7, drem := 0#3, dres := BitVec.ofNat 3 res1, dph := .closed,
        bytes := out, status := none, log := s.dec.log ++ out } }

/-- `DEC.SYM` of a tail symbol that is last (R149, R150, R151): it fails where more than 3 bits are needed,
and where its padding bits are not all 1; otherwise its top `8 - DREM` bits complete the last byte.
The failure where more than 3 bits are needed is what R149 decides (log entry 11).
That the ENC unit's output port (log entry 8) and the stream (log entry 1) stay as they were is the model's choice. -/
def Obligations.DecSymResolvesTailSymbol : Prop :=
  ∀ (T : Tables) (s : State) (sym : Symbol) (t : TailIndex), s.dec.Inv → s.dec.dfail = false →
    s.dec.dph ≠ .closed → romR T sym = .miss → tailFind T sym = .found t →
    let d := s.dec.drem.toNat
    let x := s.dec.dstage.toNat * 2 ^ (8 - d) + t.toNat / 2 ^ (d - 5)
    (d ≤ 4 → applyOp T (.decSym sym true) s = { s with dec :=
      { s.dec with dfail := true, dcause := some .tailMisaligned, bytes := [], status := none } }) ∧
    (5 ≤ d → t.toNat % 2 ^ (d - 5) ≠ 2 ^ (d - 5) - 1 → applyOp T (.decSym sym true) s = { s with dec :=
      { s.dec with dfail := true, dcause := some .invalidTailPadding, bytes := [], status := none } }) ∧
    (5 ≤ d → t.toNat % 2 ^ (d - 5) = 2 ^ (d - 5) - 1 → x < 256 ∧
      applyOp T (.decSym sym true) s = { s with dec :=
        { s.dec with
          dstage := 0#7, drem := 0#3, dres := BitVec.ofNat 3 ((d + 3) % 8), dph := .closed,
          bytes := [BitVec.ofNat 8 x], status := none, log := s.dec.log ++ [BitVec.ofNat 8 x] } })

/-- `DEC.SYM` of a symbol ROM R does not know: not last it fails with `PrematureSentinel`, tail symbol or
not (R146); last and in neither alphabet it fails with `UnknownSymbol` (R147).
That the ENC unit's output port (log entry 8) and the stream (log entry 1) stay as they were is the model's choice. -/
def Obligations.DecSymFailsOnSentinel : Prop :=
  ∀ (T : Tables) (s : State) (sym : Symbol), s.dec.dfail = false → s.dec.dph ≠ .closed →
    (∀ g, T.primary g ≠ sym) →
    applyOp T (.decSym sym false) s = { s with dec :=
      { s.dec with dfail := true, dcause := some .prematureSentinel, bytes := [], status := none } } ∧
    ((∀ i, T.tail i ≠ sym) → applyOp T (.decSym sym true) s = { s with dec :=
      { s.dec with dfail := true, dcause := some .unknownSymbol, bytes := [], status := none } })

/-- `DEC.SYM` in a failed transaction is ignored: no register is written and nothing is emitted (R142).
That the ENC unit's output port (log entry 8) and the stream (log entry 1) stay as they were is the model's choice. -/
def Obligations.DecSymIgnoredAfterFailure : Prop :=
  ∀ (s : State) (sym : Symbol) (last : Bool), s.dec.dfail = true →
    exec (.decSym sym last) s = .next { s with dec := { s.dec with bytes := [], status := none } }

/-- `DEC.SYM` after the last symbol is a protocol violation (R143).
That the ENC unit's output port (log entry 8) and the stream (log entry 1) stay as they were is the model's choice. -/
def Obligations.DecSymAfterLastViolatesProtocol : Prop :=
  ∀ (s : State) (sym : Symbol) (last : Bool), s.dec.dfail = false → s.dec.dph = .closed →
    exec (.decSym sym last) s = .next { s with dec :=
      { s.dec with dfail := true, dcause := some .protocolViolation, bytes := [], status := none } }

/-- The tests of one `DEC.SYM` in their order: the first that fires decides the cause, and where none fires
`DCAUSE` is not written (R219). -/
def Obligations.FirstFailingTestDecidesCause : Prop :=
  ∀ (T : Tables) (s : State) (sym : Symbol) (last : Bool),
    (applyOp T (.decSym sym last) s).dec.dcause =
      if s.dec.dfail = true then s.dec.dcause
      else if s.dec.dph = .closed then some .protocolViolation
      else match romR T sym with
        | .hit _ => s.dec.dcause
        | .miss =>
          if last = false then some .prematureSentinel
          else match tailFind T sym with
            | .absent => some .unknownSymbol
            | .found t =>
              let need := 8 - s.dec.drem.toNat
              if 3 < need then some .tailMisaligned
              else if t.toNat &&& ones (3 - need) ≠ ones (3 - need) then some .invalidTailPadding
              else s.dec.dcause

/-- A failing `DEC.SYM` writes `DFAIL` and `DCAUSE` and no other register; it emits no byte and reports
nothing (R220).
That the ENC unit's output port (log entry 8) and the stream (log entry 1) stay as they were is the model's choice. -/
def Obligations.FailingSymWritesOnlyFlags : Prop :=
  ∀ (T : Tables) (s : State) (sym : Symbol) (last : Bool), s.dec.dfail = false →
    (applyOp T (.decSym sym last) s).dec.dfail = true →
    ∃ c : Cause, applyOp T (.decSym sym last) s = { s with dec :=
      { s.dec with dfail := true, dcause := some c, bytes := [], status := none } }

/-- A failure stands until the transaction ends (R142, R225): whatever symbols follow, no register changes
and no byte is emitted, and `DEC.END` reports `FAIL`.
That the ENC unit's output port (log entry 8) and the stream (log entry 1) stay as they were is the model's choice. -/
def Obligations.FailureStandsUntilEnd : Prop :=
  ∀ (T : Tables) (s : State) (l : List (Symbol × Bool)), s.dec.dfail = true →
    let t := runOps T (l.map fun p => .decSym p.1 p.2) s
    t = { s with dec := { s.dec with bytes := t.dec.bytes, status := t.dec.status } } ∧
    (applyOp T .decEnd t).dec.status = some false

/-- A performed `DEC.SYM` that does not fail emits one byte or two, and if it is last it leaves no bit held
(R157). -/
def Obligations.SuccessfulSymEmitsBytes : Prop :=
  ∀ (s t : State) (sym : Symbol) (last : Bool), s.dec.Inv → s.dec.dfail = false →
    exec (.decSym sym last) s = .next t → t.dec.dfail = false →
    1 ≤ t.dec.bytes.length ∧ t.dec.bytes.length ≤ 2 ∧
    (last = true → t.dec.drem = 0#3 ∧ t.dec.dstage = 0#7)

/-- `DEC.END` reports `OK` exactly when the transaction has not failed and its phase is not OPEN, emits no
byte, and clears the six registers; nothing else changes (R171, R172, R173).
That the ENC unit's output port (log entry 8) and the stream (log entry 1) stay as they were is the model's choice. -/
def Obligations.DecEndReportsAndClears : Prop :=
  ∀ s : State, exec .decEnd s =
    .next { s with dec :=
      { dstage := 0#7, drem := 0#3, dres := 0#3, dfail := false, dph := .empty, dcause := none,
        bytes := [],
        status := some (decide (s.dec.dfail = false ∧ (s.dec.dph = .empty ∨ s.dec.dph = .closed))),
        log := s.dec.log } }

/-- No partial byte is held when `DEC.END` reports `OK` (42_whole_buffer_functions.md R187). -/
def Obligations.NoBitHeldAtSuccessfulEnd : Prop :=
  ∀ s t : State, s.dec.Inv → exec .decEnd s = .next t → t.dec.status = some true →
    s.dec.drem = 0#3 ∧ s.dec.dstage = 0#7

/-- The frame of the DEC operations: no ENC register and no symbol the ENC unit emitted changes (R174); the DEC log
gets what the DEC port shows, two bytes at most; only `DEC.END` reports a status, and it and `DEC.START` emit no byte
(30_encoding.md R103, R105). That the ENC unit's output port stays as it was is the model's choice (log entry 8), and
so is the stream of what the host has still to issue, which stays as it was (log entry 1). -/
def Obligations.DecOperationsFrame : Prop :=
  ∀ (i : Instr) (s t : State), i.port = .dec → exec i s = .next t →
    t.enc = s.enc ∧ t.pending = s.pending ∧ t.dec.log = s.dec.log ++ t.dec.bytes ∧
    t.dec.bytes.length ≤ 2 ∧ (t.dec.status ≠ none ↔ i = .decEnd) ∧
    (i = .decEnd ∨ i = .decStart → t.dec.bytes = [])

/-! ### Arithmetic and tables (00_scope.md, 20_memory.md) -/

/-- `trailing_ones(x) >= p` exactly when `x & ones(p) = ones(p)` (00_scope.md R11). -/
def Obligations.TrailingOnesMeansLowBitsSet : Prop :=
  ∀ x p : Nat, p ≤ trailingOnes x ↔ x &&& ones p = ones p

/-- With well-formed tables ROM R inverts ROM P and misses on every other symbol, and a tail search finds
every tail symbol at its index and no other symbol, primary or in neither table (20_memory.md R54, R58, R59). -/
def Obligations.LookupsInvertTables : Prop :=
  ∀ T : Tables, T.WF →
    (∀ g, romR T (romP T g) = .hit g) ∧ (∀ i, romR T (romT T i) = .miss) ∧
    (∀ s, (∀ g, T.primary g ≠ s) → romR T s = .miss) ∧
    (∀ i, tailFind T (romT T i) = .found i) ∧ (∀ s, (∀ i, T.tail i ≠ s) → tailFind T s = .absent) ∧
    (∀ g, tailFind T (romP T g) = .absent)

/-! ### Whole buffers (42_whole_buffer_functions.md) -/

/-- After `n` bytes from an empty accumulator, `EREM = 8n mod 11`, `ESTAGE` is the number of the last `EREM`
bits of the input, and `floor(8n / 11)` symbols are out (10_state.md R24). -/
def Obligations.EncoderHoldsLeftoverBits : Prop :=
  ∀ (T : Tables) (s : State) (bs : List Byte), s.enc.estage = 0#10 → s.enc.erem = 0#4 →
    let t := runOps T (bs.map Instr.encByte) s
    t.enc.erem.toNat = 8 * bs.length % 11 ∧
    t.enc.estage.toNat = numOf ((bitsOfBytes bs).drop (11 * (8 * bs.length / 11))) ∧
    t.enc.log.length = s.enc.log.length + 8 * bs.length / 11

/-- `encode`, performed from any state, is its closed form (R180, R181). -/
def Obligations.EncodeMatchesClosedForm : Prop :=
  ∀ (T : Tables) (s : State) (bs : List Byte), encodeFrom T s bs = encodeClosed T bs

/-- The length of an encoding is `ceil(8n / 11)` (R182). -/
def Obligations.EncodeLength : Prop :=
  ∀ (T : Tables) (s : State) (bs : List Byte), (encodeFrom T s bs).length = (8 * bs.length + 10) / 11

/-- An encoding is primary symbols, then a tail symbol exactly when `n mod 11` is 7, 3 or 10 (R183;
30_encoding.md R81). -/
def Obligations.EncodeOutputAlphabet : Prop :=
  ∀ (T : Tables) (s : State) (bs : List Byte), ∃ (gs : List Group) (is : List TailIndex),
    encodeFrom T s bs = gs.map T.primary ++ is.map T.tail ∧
    is.length = if bs.length % 11 = 7 ∨ bs.length % 11 = 3 ∨ bs.length % 11 = 10 then 1 else 0

/-- After `k` primary symbols, none of them last, `DREM = DRES = 11k mod 8`, `DSTAGE` is the number of the
last `DREM` bits received, and every whole byte before them is out (10_state.md R27, R29). -/
def Obligations.DecoderHoldsLeftoverBits : Prop :=
  ∀ (T : Tables) (s : State) (gs : List Group), T.WF →
    let t := runOps T (.decStart :: gs.map fun g => .decSym (T.primary g) false) s
    t.dec.drem.toNat = 11 * gs.length % 8 ∧ t.dec.dres = t.dec.drem ∧ t.dec.dfail = false ∧
    t.dec.dph = (if gs = [] then .empty else .opened) ∧
    t.dec.dstage.toNat = numOf ((bitsOfGroups gs).drop (8 * (11 * gs.length / 8))) ∧
    t.dec.log = s.dec.log ++ bytesOfBits (bitsOfGroups gs)

/-- `decode`, performed from any state, is its closed form (R185, R186); that a last tail symbol where more than 3
bits are needed gives no value is part of R186 (c) (log entry 11). -/
def Obligations.DecodeMatchesClosedForm : Prop :=
  ∀ (T : Tables) (s : State) (ss : List Symbol), decodeFrom T s ss = decodeClosed T ss

/-- Round trip: with well-formed tables, decoding the encoding of any byte sequence gives it back (R188). -/
def Obligations.DecodeOfEncodeIsIdentity : Prop :=
  ∀ (T : Tables) (s t : State) (bs : List Byte), T.WF →
    decodeFrom T t (encodeFrom T s bs) = some bs

/-- Which strings decode (R189): all symbols but the last primary, and the last either primary or a tail
symbol where `(k - 1) mod 8` is 7, 2 or 5 whose low `d - 5` bits are 1. -/
def Obligations.WhichStringsDecode : Prop :=
  ∀ (T : Tables) (s : State) (init : List Symbol) (x : Symbol),
    (decodeFrom T s (init ++ [x])).isSome = true ↔
      (∀ y ∈ init, ∃ g, romR T y = .hit g) ∧
      ((∃ g, romR T x = .hit g) ∨
       (romR T x = .miss ∧ ∃ t, tailFind T x = .found t ∧
        (init.length % 8 = 7 ∨ init.length % 8 = 2 ∨ init.length % 8 = 5) ∧
        let p := 11 * init.length % 8 - 5
        t.toNat % 2 ^ p = 2 ^ p - 1))

/-- The padding of a last primary symbol is discarded unread (30_encoding.md R90): strings that differ only
there decode alike. -/
def Obligations.DroppedBitsAreNotChecked : Prop :=
  ∀ (T : Tables) (s : State) (init : List Symbol) (g₁ g₂ : Group), T.WF →
    g₁.toNat / 2 ^ (11 * (init.length + 1) % 8) = g₂.toNat / 2 ^ (11 * (init.length + 1) % 8) →
    decodeFrom T s (init ++ [T.primary g₁]) = decodeFrom T s (init ++ [T.primary g₂])

/-- Malformed strings are rejected (R191): a tail symbol followed by any other symbol, a last symbol in
neither alphabet, a last tail symbol whose padding bits are not all 1. -/
def Obligations.MalformedStringsAreRejected : Prop :=
  ∀ (T : Tables) (s : State) (init : List Symbol), T.WF →
    (∀ (i : TailIndex) (y : Symbol) (rest : List Symbol),
      decodeFrom T s (init ++ T.tail i :: y :: rest) = none) ∧
    (∀ x, (∀ g, T.primary g ≠ x) → (∀ i, T.tail i ≠ x) → decodeFrom T s (init ++ [x]) = none) ∧
    (∀ i : TailIndex, 5 ≤ 11 * init.length % 8 →
      i.toNat % 2 ^ (11 * init.length % 8 - 5) ≠ 2 ^ (11 * init.length % 8 - 5) - 1 →
      decodeFrom T s (init ++ [T.tail i]) = none)

/-- The empty input (R190). -/
def Obligations.EmptyInputBothWays : Prop :=
  ∀ (T : Tables) (s : State), encodeFrom T s [] = [] ∧ decodeFrom T s [] = some []

/-- A start operation is optional where the units are clear, as after reset (70_reset_and_hazards.md R244):
the transaction's outputs are those of the expansion that begins with one. -/
def Obligations.StartIsOptionalWhenClear : Prop :=
  ∀ (T : Tables) (s : State) (bs : List Byte) (ss : List Symbol), s.Clear →
    (runOps T (bs.map Instr.encByte ++ [.encEnd]) s).enc = (runOps T (encodeOps bs) s).enc ∧
    (runOps T (symbolOps ss ++ [.decEnd]) s).dec = (runOps T (decodeOps ss) s).dec

/-! ### Both units (60_exceptions.md) -/

/-- The units are independent (R228): however operations on the two ports are interleaved, what a unit comes
to depends only on where it began and on the operations issued to it, in their order. R228 says so of the results of
transactions; that a unit's output port stays as it was while the other unit operates, which the equality of whole
units includes, is the model's choice (log entry 8). -/
def Obligations.UnitsAreIndependent : Prop :=
  ∀ (T : Tables) (ops : List Instr) (s s' : State),
    (s.enc = s'.enc → (runOps T ops s).enc = (runOps T (opsOf .enc ops) s').enc) ∧
    (s.dec = s'.dec → (runOps T ops s).dec = (runOps T (opsOf .dec ops) s').dec)

/-- A host that marks the last symbol as it must meets neither protocol violation (R215; 70_reset_and_hazards.md
R249): no `DEC.SYM` raises one, and no `DEC.END` finds a transaction that has not failed in phase OPEN, which it
would report as `FAIL` without a cause. -/
def Obligations.WellMarkedOpsViolateNoProtocol : Prop :=
  ∀ (T : Tables) (ops : List Instr) (s : State), s.Clear →
    (wellMarked ops = true → (runOps T ops s).dec.dcause ≠ some .protocolViolation) ∧
    (wellMarked (ops ++ [.decEnd]) = true →
      ¬ ((runOps T ops s).dec.dfail = false ∧ (runOps T ops s).dec.dph = .opened))

/-- The machine, stepped over the command words of `ENCODE`, emits the closed form of the encoding and
leaves the DEC unit as it was (R180, R181; 30_encoding.md R102). That the DEC unit's output port is left alone is the
model's choice (log entry 8); the words stand in the model's own stream (log entry 1). -/
def Obligations.MachineRunsEncode : Prop :=
  ∀ (s : State) (bs : List Byte) (rest : List HostEvent), s.pending = issued (encodeOps bs) ++ rest →
    ∃ t : State, Host.Core.run Sys2Proof.core (bs.length + 2) s = .next t ∧ t.pending = rest ∧
      t.dec = s.dec ∧ t.enc.log = s.enc.log ++ encodeClosed Config.tables bs

/-- The machine, stepped over the command words of `DECODE`, reports whether the closed form of the decoding
has a value, emits that value if it has one, and leaves the ENC unit as it was (R185, R186; 30_encoding.md
R102). That the ENC unit's output port is left alone is the model's choice (log entry 8); the words stand in the
model's own stream (log entry 1). -/
def Obligations.MachineRunsDecode : Prop :=
  ∀ (s : State) (ss : List Symbol) (rest : List HostEvent), s.pending = issued (decodeOps ss) ++ rest →
    ∃ t : State, Host.Core.run Sys2Proof.core (ss.length + 2) s = .next t ∧ t.pending = rest ∧
      t.enc = s.enc ∧ t.dec.status = some (decodeClosed Config.tables ss).isSome ∧
      ∀ bs, decodeClosed Config.tables ss = some bs → t.dec.log = s.dec.log ++ bs
end

