-- ==== Sys2Proof/Laws/Arith.lean ====
section
/-! SUPPORT. The arithmetic primitives as plain arithmetic (42_whole_buffer_functions.md R204: each `or`
could be written `+`), the flush loop, and the values operand assembly gives. -/

namespace Sys2Proof.Machine

theorem ones_add_one (n : Nat) : ones n + 1 = 2 ^ n := by
  have := Nat.one_le_two_pow (n := n)
  simp only [ones]; omega

theorem and_ones (a n : Nat) : a &&& ones n = a % 2 ^ n := by
  simp [ones, Nat.and_two_pow_sub_one_eq_mod]

/-- `a ++_n b` is `a * 2^n + b` when `b` has `n` bits (R12, R204). -/
theorem concatBits_eq_add {b n : Nat} (a : Nat) (h : b < 2 ^ n) : concatBits a n b = a * 2 ^ n + b := by
  rw [concatBits, ← Nat.shiftLeft_add_eq_or_of_lt h, Nat.shiftLeft_eq]

theorem trailingOnesUpTo_le (k x : Nat) : trailingOnesUpTo k x ≤ k := by
  induction k generalizing x with
  | zero => simp [trailingOnesUpTo]
  | succ k ih =>
    rw [trailingOnesUpTo]
    split
    · exact Nat.succ_le_succ (ih _)
    · omega

/-- The flush does nothing below 8 bits. -/
theorem flush_of_lt {acc cnt : Nat} (h : cnt < 8) : flush acc cnt = ([], acc, cnt) := by
  cases cnt <;> simp_all [flush, flushUpTo]

/-- One round: 8 to 15 bits give one byte. -/
theorem flush_one {acc cnt : Nat} (h₁ : 8 ≤ cnt) (h₂ : cnt < 16) :
    flush acc cnt = ([BitVec.ofNat 8 (acc / 2 ^ (cnt - 8))], acc % 2 ^ (cnt - 8), cnt - 8) := by
  obtain ⟨k, rfl⟩ : ∃ k, cnt = k + 8 := ⟨cnt - 8, by omega⟩
  have hk : k < 8 := by omega
  have hb : ∀ x : Nat, BitVec.ofNat 8 (x % 256) = BitVec.ofNat 8 x := fun x => by
    apply BitVec.eq_of_toNat_eq; simp
  rw [flush, show k + 8 = (k + 6) + 1 + 1 from rfl, flushUpTo, flushUpTo]
  rw [if_neg (by omega), if_pos (by omega)]
  simp only [show (k + 6) + 1 + 1 - 8 = k by omega, and_ones, Nat.shiftRight_eq_div_pow]
  rw [show (0xFF : Nat) = ones 8 from rfl, and_ones, show (2 : Nat) ^ 8 = 256 from rfl, hb]

/-- Two rounds: 16 to 23 bits give two bytes. -/
theorem flush_two {acc cnt : Nat} (h₁ : 16 ≤ cnt) (h₂ : cnt < 24) :
    flush acc cnt = ([BitVec.ofNat 8 (acc / 2 ^ (cnt - 8)), BitVec.ofNat 8 (acc / 2 ^ (cnt - 16))],
      acc % 2 ^ (cnt - 16), cnt - 16) := by
  obtain ⟨k, rfl⟩ : ∃ k, cnt = k + 16 := ⟨cnt - 16, by omega⟩
  have hk : k < 8 := by omega
  have hb : ∀ x : Nat, BitVec.ofNat 8 (x % 256) = BitVec.ofNat 8 x := fun x => by
    apply BitVec.eq_of_toNat_eq; simp
  have hdiv : acc % 2 ^ (k + 8) / 2 ^ k = acc / 2 ^ k % 256 := by
    rw [Nat.pow_add, Nat.mod_mul_right_div_self]
  have hmod : acc % 2 ^ (k + 8) % 2 ^ k = acc % 2 ^ k :=
    Nat.mod_mod_of_dvd _ (Nat.pow_dvd_pow 2 (by omega))
  rw [flush, show k + 16 = (k + 13) + 1 + 1 + 1 from rfl, flushUpTo, flushUpTo, flushUpTo]
  rw [if_neg (by omega), if_neg (by omega), if_pos (by omega)]
  simp only [show (k + 13) + 1 + 1 + 1 - 8 = k + 8 by omega, show k + 8 - 8 = k by omega,
    show (k + 13) + 1 + 1 + 1 - 16 = k by omega, and_ones, Nat.shiftRight_eq_div_pow]
  rw [show (0xFF : Nat) = ones 8 from rfl, and_ones, and_ones, show (2 : Nat) ^ 8 = 256 from rfl, hdiv, hb, hb, hb, hmod]

/-- Whatever it is given, the flush leaves fewer than 8 bits (R155). -/
theorem flushUpTo_count_lt (k acc cnt : Nat) (h : cnt < 8 * (k + 1)) : (flushUpTo k acc cnt).2.2 < 8 := by
  induction k generalizing acc cnt with
  | zero => simp only [flushUpTo]; omega
  | succ k ih =>
    rw [flushUpTo]
    split
    · assumption
    · exact ih _ _ (by omega)

theorem flush_count_lt (acc cnt : Nat) : (flush acc cnt).2.2 < 8 :=
  flushUpTo_count_lt cnt acc cnt (by omega)

end Sys2Proof.Machine
end

