-- ==== Sys2Proof/Laws/State.lean ====
section
/-! SUPPORT. One lemma for each field after each update of the state: later proofs rewrite with these and
unfold no record update. -/

namespace Sys2Proof.Machine

/-! ### Units in the state -/

@[simp] theorem State.withEnc_enc (s : State) (u : EncUnit) : (s.withEnc u).enc = u := rfl
@[simp] theorem State.withEnc_dec (s : State) (u : EncUnit) : (s.withEnc u).dec = s.dec := rfl
@[simp] theorem State.withEnc_pending (s : State) (u : EncUnit) : (s.withEnc u).pending = s.pending := rfl
@[simp] theorem State.withDec_enc (s : State) (u : DecUnit) : (s.withDec u).enc = s.enc := rfl
@[simp] theorem State.withDec_dec (s : State) (u : DecUnit) : (s.withDec u).dec = u := rfl
@[simp] theorem State.withDec_pending (s : State) (u : DecUnit) : (s.withDec u).pending = s.pending := rfl

/-! ### The ENC unit -/

@[simp] theorem EncUnit.clear_estage (u : EncUnit) : u.clear.estage = 0#10 := rfl
@[simp] theorem EncUnit.clear_erem (u : EncUnit) : u.clear.erem = 0#4 := rfl
@[simp] theorem EncUnit.clear_port (u : EncUnit) : u.clear.port = u.port := rfl
@[simp] theorem EncUnit.clear_log (u : EncUnit) : u.clear.log = u.log := rfl
@[simp] theorem EncUnit.write_estage (u : EncUnit) (a r : Nat) : (u.write a r).estage = BitVec.ofNat 10 a := rfl
@[simp] theorem EncUnit.write_erem (u : EncUnit) (a r : Nat) : (u.write a r).erem = BitVec.ofNat 4 r := rfl
@[simp] theorem EncUnit.write_port (u : EncUnit) (a r : Nat) : (u.write a r).port = u.port := rfl
@[simp] theorem EncUnit.write_log (u : EncUnit) (a r : Nat) : (u.write a r).log = u.log := rfl
@[simp] theorem EncUnit.emitSym_estage (u : EncUnit) (s : Symbol) : (u.emitSym s).estage = u.estage := rfl
@[simp] theorem EncUnit.emitSym_erem (u : EncUnit) (s : Symbol) : (u.emitSym s).erem = u.erem := rfl
@[simp] theorem EncUnit.emitSym_port (u : EncUnit) (s : Symbol) : (u.emitSym s).port = some s := rfl
@[simp] theorem EncUnit.emitSym_log (u : EncUnit) (s : Symbol) : (u.emitSym s).log = u.log ++ [s] := rfl
@[simp] theorem EncUnit.emitNothing_estage (u : EncUnit) : u.emitNothing.estage = u.estage := rfl
@[simp] theorem EncUnit.emitNothing_erem (u : EncUnit) : u.emitNothing.erem = u.erem := rfl
@[simp] theorem EncUnit.emitNothing_port (u : EncUnit) : u.emitNothing.port = none := rfl
@[simp] theorem EncUnit.emitNothing_log (u : EncUnit) : u.emitNothing.log = u.log := rfl

/-! ### The DEC unit -/

@[simp] theorem DecUnit.clear_dstage (u : DecUnit) : u.clear.dstage = 0#7 := rfl
@[simp] theorem DecUnit.clear_drem (u : DecUnit) : u.clear.drem = 0#3 := rfl
@[simp] theorem DecUnit.clear_dres (u : DecUnit) : u.clear.dres = 0#3 := rfl
@[simp] theorem DecUnit.clear_dfail (u : DecUnit) : u.clear.dfail = false := rfl
@[simp] theorem DecUnit.clear_dph (u : DecUnit) : u.clear.dph = .empty := rfl
@[simp] theorem DecUnit.clear_dcause (u : DecUnit) : u.clear.dcause = none := rfl
@[simp] theorem DecUnit.clear_bytes (u : DecUnit) : u.clear.bytes = u.bytes := rfl
@[simp] theorem DecUnit.clear_status (u : DecUnit) : u.clear.status = u.status := rfl
@[simp] theorem DecUnit.clear_log (u : DecUnit) : u.clear.log = u.log := rfl

section
variable (u : DecUnit) (bs : List Byte) (st : Option Bool)
@[simp] theorem DecUnit.present_dstage : (u.present bs st).dstage = u.dstage := rfl
@[simp] theorem DecUnit.present_drem : (u.present bs st).drem = u.drem := rfl
@[simp] theorem DecUnit.present_dres : (u.present bs st).dres = u.dres := rfl
@[simp] theorem DecUnit.present_dfail : (u.present bs st).dfail = u.dfail := rfl
@[simp] theorem DecUnit.present_dph : (u.present bs st).dph = u.dph := rfl
@[simp] theorem DecUnit.present_dcause : (u.present bs st).dcause = u.dcause := rfl
@[simp] theorem DecUnit.present_bytes : (u.present bs st).bytes = bs := rfl
@[simp] theorem DecUnit.present_status : (u.present bs st).status = st := rfl
@[simp] theorem DecUnit.present_log : (u.present bs st).log = u.log ++ bs := rfl
end

section
variable (u : DecUnit) (c : Cause)
@[simp] theorem DecUnit.raise_dstage : (u.raise c).dstage = u.dstage := rfl
@[simp] theorem DecUnit.raise_drem : (u.raise c).drem = u.drem := rfl
@[simp] theorem DecUnit.raise_dres : (u.raise c).dres = u.dres := rfl
@[simp] theorem DecUnit.raise_dfail : (u.raise c).dfail = true := rfl
@[simp] theorem DecUnit.raise_dph : (u.raise c).dph = u.dph := rfl
@[simp] theorem DecUnit.raise_dcause : (u.raise c).dcause = some c := rfl
@[simp] theorem DecUnit.raise_bytes : (u.raise c).bytes = [] := rfl
@[simp] theorem DecUnit.raise_status : (u.raise c).status = none := rfl
@[simp] theorem DecUnit.raise_log : (u.raise c).log = u.log := rfl
end

section
variable (u : DecUnit) (a r : Nat) (res : BitVec 3) (ph : Phase)
@[simp] theorem DecUnit.accept_dstage : (u.accept a r res ph).dstage = BitVec.ofNat 7 a := rfl
@[simp] theorem DecUnit.accept_drem : (u.accept a r res ph).drem = BitVec.ofNat 3 r := rfl
@[simp] theorem DecUnit.accept_dres : (u.accept a r res ph).dres = res := rfl
@[simp] theorem DecUnit.accept_dfail : (u.accept a r res ph).dfail = u.dfail := rfl
@[simp] theorem DecUnit.accept_dph : (u.accept a r res ph).dph = ph := rfl
@[simp] theorem DecUnit.accept_dcause : (u.accept a r res ph).dcause = u.dcause := rfl
@[simp] theorem DecUnit.accept_bytes : (u.accept a r res ph).bytes = u.bytes := rfl
@[simp] theorem DecUnit.accept_status : (u.accept a r res ph).status = u.status := rfl
@[simp] theorem DecUnit.accept_log : (u.accept a r res ph).log = u.log := rfl
end

/-! ### Reset and host events -/

@[simp] theorem State.assertReset_enc (s : State) : s.assertReset.enc = s.enc.clear.emitNothing := rfl
@[simp] theorem State.assertReset_dec (s : State) : s.assertReset.dec = s.dec.clear.present [] none := rfl
@[simp] theorem State.assertReset_pending (s : State) : s.assertReset.pending = s.pending := rfl
@[simp] theorem State.issueFirst_enc (s : State) (e : HostEvent) : (s.issueFirst e).enc = s.enc := rfl
@[simp] theorem State.issueFirst_dec (s : State) (e : HostEvent) : (s.issueFirst e).dec = s.dec := rfl
@[simp] theorem State.issueFirst_pending (s : State) (e : HostEvent) :
    (s.issueFirst e).pending = e :: s.pending := rfl

theorem State.nextEvent_nil {s : State} (h : s.pending = []) : s.nextEvent = none := by
  simp [State.nextEvent, h]

theorem State.nextEvent_cons {s : State} {e : HostEvent} {rest : List HostEvent} (h : s.pending = e :: rest) :
    s.nextEvent = some (e, { s with pending := rest }) := by
  simp [State.nextEvent, h]

/-- An event issued first is the one taken next, and taking it leaves the rest as it was. -/
theorem State.nextEvent_issueFirst (s : State) (e : HostEvent) : (s.issueFirst e).nextEvent = some (e, s) := rfl

end Sys2Proof.Machine
end

