-- ==== Sys2Proof/Laws/Dec.lean ====
section
/-! SUPPORT. What the DEC operations do, arm by arm, as plain arithmetic, and that they keep the DEC
invariant (10_state.md R28, R29, R34, R35). -/

namespace Sys2Proof.Machine

/-- The residue advance is an addition of 3 modulo 8 (41_decoder_ops.md R144). -/
theorem residueAdvance_toNat (r : BitVec 3) : (residueAdvance r).toNat = (r.toNat + 3) % 8 := by
  revert r; decide

/-- The tail arm as plain arithmetic (41_decoder_ops.md R148 to R151). -/
theorem tailContribution_eq (t : TailIndex) (drem : BitVec 3) :
    tailContribution t drem =
      if drem.toNat ≤ 4 then .fail .tailMisaligned
      else if t.toNat % 2 ^ (drem.toNat - 5) ≠ 2 ^ (drem.toNat - 5) - 1 then .fail .invalidTailPadding
      else .bits (8 - drem.toNat) (t.toNat / 2 ^ (drem.toNat - 5)) := by
  revert t drem; decide

/-- A primary symbol, last or not. -/
theorem contribution_of_hit {T : Tables} {s : Symbol} {g : Group} (h : romR T s = .hit g) (last : Bool)
    (drem res1 : BitVec 3) : contribution T s last drem res1 = primaryContribution g last res1 := by
  unfold contribution; rw [h]

/-- A symbol ROM R misses on, not last (R146). -/
theorem contribution_of_miss_notLast {T : Tables} {s : Symbol} (h : romR T s = .miss) (drem res1 : BitVec 3) :
    contribution T s false drem res1 = .fail .prematureSentinel := by
  unfold contribution; rw [h]; rfl

/-- A last symbol in neither table (R147). -/
theorem contribution_of_absent {T : Tables} {s : Symbol} (h : romR T s = .miss) (ht : tailFind T s = .absent)
    (drem res1 : BitVec 3) : contribution T s true drem res1 = .fail .unknownSymbol := by
  unfold contribution; rw [h]; simp only [if_true]; rw [ht]

/-- A last tail symbol (R148). -/
theorem contribution_of_found {T : Tables} {s : Symbol} {t : TailIndex} (h : romR T s = .miss)
    (ht : tailFind T s = .found t) (drem res1 : BitVec 3) :
    contribution T s true drem res1 = tailContribution t drem := by
  unfold contribution; rw [h]; simp only [if_true]; rw [ht]

/-- Where a symbol's bits come from: a primary symbol not last (R153), a last primary symbol (R152), or a
last tail symbol (R151). -/
theorem contribution_bits {T : Tables} {s : Symbol} {last : Bool} {drem res1 : BitVec 3} {n v : Nat}
    (h : contribution T s last drem res1 = .bits n v) :
    (∃ g, romR T s = .hit g ∧ last = false ∧ n = 11 ∧ v = g.toNat) ∨
    (∃ g, romR T s = .hit g ∧ last = true ∧ n = 11 - res1.toNat ∧ v = g.toNat / 2 ^ res1.toNat) ∨
    (∃ t, romR T s = .miss ∧ last = true ∧ tailFind T s = .found t ∧ 5 ≤ drem.toNat ∧
      t.toNat % 2 ^ (drem.toNat - 5) = 2 ^ (drem.toNat - 5) - 1 ∧
      n = 8 - drem.toNat ∧ v = t.toNat / 2 ^ (drem.toNat - 5)) := by
  unfold contribution at h
  split at h
  · rename_i g hg
    cases last with
    | false =>
      simp only [primaryContribution, Bool.false_eq_true, if_false, Contribution.bits.injEq] at h
      exact .inl ⟨g, hg, rfl, h.1.symm, h.2.symm⟩
    | true =>
      simp only [primaryContribution, if_true, Contribution.bits.injEq, Nat.shiftRight_eq_div_pow] at h
      exact .inr (.inl ⟨g, hg, rfl, h.1.symm, h.2.symm⟩)
  · rename_i hm
    cases last with
    | false => simp at h
    | true =>
      simp only [if_true] at h
      split at h
      · rename_i t ht
        rw [tailContribution_eq] at h
        split at h
        · cases h
        · split at h
          · cases h
          · rename_i h1 h2
            simp only [Contribution.bits.injEq] at h
            exact .inr (.inr ⟨t, hm, rfl, ht, by omega, by simpa using h2, h.1.symm, h.2.symm⟩)
      · cases h

/-- Why a symbol fails, each cause with its condition (60_exceptions.md R210). -/
theorem contribution_fail {T : Tables} {s : Symbol} {last : Bool} {drem res1 : BitVec 3} {c : Cause}
    (h : contribution T s last drem res1 = .fail c) :
    romR T s = .miss ∧
    ((last = false ∧ c = .prematureSentinel) ∨
     (last = true ∧ tailFind T s = .absent ∧ c = .unknownSymbol) ∨
     (∃ t, last = true ∧ tailFind T s = .found t ∧ drem.toNat ≤ 4 ∧ c = .tailMisaligned) ∨
     (∃ t, last = true ∧ tailFind T s = .found t ∧ 5 ≤ drem.toNat ∧
       t.toNat % 2 ^ (drem.toNat - 5) ≠ 2 ^ (drem.toNat - 5) - 1 ∧ c = .invalidTailPadding)) := by
  unfold contribution at h
  split at h
  · unfold primaryContribution at h
    split at h <;> cases h
  · rename_i hm
    refine ⟨hm, ?_⟩
    cases last with
    | false =>
      simp only [Bool.false_eq_true, if_false, Contribution.fail.injEq] at h
      exact .inl ⟨rfl, h.symm⟩
    | true =>
      simp only [if_true] at h
      split at h
      · rename_i t ht
        rw [tailContribution_eq] at h
        split at h
        · simp only [Contribution.fail.injEq] at h
          exact .inr (.inr (.inl ⟨t, rfl, ht, ‹_›, h.symm⟩))
        · split at h
          · simp only [Contribution.fail.injEq] at h
            exact .inr (.inr (.inr ⟨t, rfl, ht, by omega, ‹_›, h.symm⟩))
          · cases h
      · simp only [Contribution.fail.injEq] at h
        exact .inr (.inl ⟨rfl, ‹_›, h.symm⟩)

/-- Everything `DEC.SYM` can do (R141 to R156). -/
theorem decSymUnit_cases (T : Tables) (sym : Symbol) (last : Bool) (u : DecUnit) :
    (u.dfail = true ∧ decSymUnit T sym last u = u.present [] none) ∨
    (u.dfail = false ∧ u.dph = .closed ∧ decSymUnit T sym last u = u.raise .protocolViolation) ∨
    (u.dfail = false ∧ u.dph ≠ .closed ∧ ∃ c, contribution T sym last u.drem (residueAdvance u.dres) = .fail c ∧
      decSymUnit T sym last u = u.raise c) ∨
    (u.dfail = false ∧ u.dph ≠ .closed ∧ ∃ n v,
      contribution T sym last u.drem (residueAdvance u.dres) = .bits n v ∧
      decSymUnit T sym last u = takeBits n v (residueAdvance u.dres) last u) := by
  unfold decSymUnit
  by_cases hf : u.dfail = true
  · exact .inl ⟨hf, if_pos hf⟩
  · have hf' : u.dfail = false := by simpa using hf
    rw [if_neg hf]
    by_cases hp : u.dph = .closed
    · exact .inr (.inl ⟨hf', hp, if_pos hp⟩)
    · rw [if_neg hp]
      cases hc : contribution T sym last u.drem (residueAdvance u.dres) with
      | fail c => exact .inr (.inr (.inl ⟨hf', hp, c, rfl, rfl⟩))
      | bits n v => exact .inr (.inr (.inr ⟨hf', hp, n, v, rfl, rfl⟩))

/-- Taking bits that complete one byte (R154 to R156). -/
theorem takeBits_one {n v : Nat} (res1 : BitVec 3) (last : Bool) (u : DecUnit) (hv : v < 2 ^ n)
    (h₁ : 8 ≤ u.drem.toNat + n) (h₂ : u.drem.toNat + n < 16) :
    takeBits n v res1 last u =
      (u.present [BitVec.ofNat 8 ((u.dstage.toNat * 2 ^ n + v) / 2 ^ (u.drem.toNat + n - 8))] none).accept
        ((u.dstage.toNat * 2 ^ n + v) % 2 ^ (u.drem.toNat + n - 8)) (u.drem.toNat + n - 8) res1
        (phaseAfter last) := by
  simp only [takeBits, concatBits_eq_add _ hv, flush_one h₁ h₂]

/-- Taking bits that complete two bytes (R154 to R156). -/
theorem takeBits_two {n v : Nat} (res1 : BitVec 3) (last : Bool) (u : DecUnit) (hv : v < 2 ^ n)
    (h₁ : 16 ≤ u.drem.toNat + n) (h₂ : u.drem.toNat + n < 24) :
    takeBits n v res1 last u =
      (u.present [BitVec.ofNat 8 ((u.dstage.toNat * 2 ^ n + v) / 2 ^ (u.drem.toNat + n - 8)),
        BitVec.ofNat 8 ((u.dstage.toNat * 2 ^ n + v) / 2 ^ (u.drem.toNat + n - 16))] none).accept
        ((u.dstage.toNat * 2 ^ n + v) % 2 ^ (u.drem.toNat + n - 16)) (u.drem.toNat + n - 16) res1
        (phaseAfter last) := by
  simp only [takeBits, concatBits_eq_add _ hv, flush_two h₁ h₂]

/-- The value a symbol brings fits the bits it brings. -/
theorem contribution_bits_lt {T : Tables} {s : Symbol} {last : Bool} {drem res1 : BitVec 3} {n v : Nat}
    (h : contribution T s last drem res1 = .bits n v) : v < 2 ^ n ∧ 1 ≤ n ∧ n ≤ 11 := by
  rcases contribution_bits h with ⟨g, -, -, rfl, rfl⟩ | ⟨g, -, -, rfl, rfl⟩ | ⟨t, -, -, -, h5, -, rfl, rfl⟩
  · exact ⟨g.isLt, by omega, by omega⟩
  · have hr := res1.isLt
    refine ⟨?_, by omega, by omega⟩
    rw [Nat.div_lt_iff_lt_mul (by positivity), ← Nat.pow_add, show 11 - res1.toNat + res1.toNat = 11 by omega]
    exact g.isLt
  · have hd := drem.isLt
    refine ⟨?_, by omega, by omega⟩
    rw [Nat.div_lt_iff_lt_mul (by positivity), ← Nat.pow_add,
      show 8 - drem.toNat + (drem.toNat - 5) = 3 by omega]
    exact t.isLt

/-- At the last symbol the count comes to 8 or 16, if `DRES = DREM` before it (42_whole_buffer_functions.md R187). -/
theorem last_count {T : Tables} {s : Symbol} {u : DecUnit} {n v : Nat} (hres : u.dres = u.drem)
    (h : contribution T s true u.drem (residueAdvance u.dres) = .bits n v) :
    u.drem.toNat + n = 8 ∨ u.drem.toNat + n = 16 := by
  rcases contribution_bits h with ⟨g, -, hl, -⟩ | ⟨g, -, -, rfl, -⟩ | ⟨t, -, -, -, h5, -, rfl, -⟩
  · cases hl
  · rw [residueAdvance_toNat, hres]
    have := u.drem.isLt
    omega
  · have := u.drem.isLt
    omega

/-- Before the last symbol a performed `DEC.SYM` brings 11 bits (R153). -/
theorem not_last_count {T : Tables} {s : Symbol} {drem res1 : BitVec 3} {n v : Nat}
    (h : contribution T s false drem res1 = .bits n v) : n = 11 := by
  rcases contribution_bits h with ⟨g, -, -, rfl, -⟩ | ⟨g, -, hl, -⟩ | ⟨t, -, hl, -⟩
  · rfl
  · cases hl
  · cases hl

/-- What is held after a symbol was taken fits its count, and at most two bytes left. -/
theorem takeBits_stage {n v : Nat} (res1 : BitVec 3) (last : Bool) (u : DecUnit) (hv : v < 2 ^ n)
    (h₁ : 8 ≤ u.drem.toNat + n) (h₂ : u.drem.toNat + n < 24) :
    (takeBits n v res1 last u).drem.toNat = (u.drem.toNat + n) % 8 ∧
    (takeBits n v res1 last u).dstage.toNat < 2 ^ (takeBits n v res1 last u).drem.toNat ∧
    (takeBits n v res1 last u).bytes.length = (u.drem.toNat + n) / 8 := by
  have key : ∀ a c : Nat, c < 8 → (BitVec.ofNat 3 c).toNat = c ∧
      (BitVec.ofNat 7 (a % 2 ^ c)).toNat < 2 ^ (BitVec.ofNat 3 c).toNat := fun a c hc => by
    have h1 : (BitVec.ofNat 3 c).toNat = c := by simp; omega
    refine ⟨h1, ?_⟩
    rw [h1]
    exact lt_of_le_of_lt (by simpa using Nat.mod_le _ _) (Nat.mod_lt a (by positivity))
  by_cases h : u.drem.toNat + n < 16
  · rw [takeBits_one res1 last u hv h₁ h]
    obtain ⟨k1, k2⟩ := key (u.dstage.toNat * 2 ^ n + v) (u.drem.toNat + n - 8) (by omega)
    refine ⟨?_, k2, ?_⟩
    · rw [DecUnit.accept_drem, k1]; omega
    · simp; omega
  · rw [takeBits_two res1 last u hv (by omega) h₂]
    obtain ⟨k1, k2⟩ := key (u.dstage.toNat * 2 ^ n + v) (u.drem.toNat + n - 16) (by omega)
    refine ⟨?_, k2, ?_⟩
    · rw [DecUnit.accept_drem, k1]; omega
    · simp; omega

section
variable (n v : Nat) (res1 : BitVec 3) (last : Bool) (u : DecUnit)
@[simp] theorem takeBits_dres : (takeBits n v res1 last u).dres = res1 := rfl
@[simp] theorem takeBits_dfail : (takeBits n v res1 last u).dfail = u.dfail := rfl
@[simp] theorem takeBits_dph : (takeBits n v res1 last u).dph = phaseAfter last := rfl
@[simp] theorem takeBits_dcause : (takeBits n v res1 last u).dcause = u.dcause := rfl
@[simp] theorem takeBits_status : (takeBits n v res1 last u).status = none := rfl
@[simp] theorem takeBits_log :
    (takeBits n v res1 last u).log = u.log ++ (takeBits n v res1 last u).bytes := rfl
end

/-- A clear unit meets the invariant whatever its ports show, as long as they show an operation's output. -/
theorem decStartUnit_inv (u : DecUnit) : (decStartUnit u).Inv := by
  constructor <;> simp [decStartUnit]

theorem decEndUnit_inv (u : DecUnit) : (decEndUnit u).Inv := by
  constructor <;> simp [decEndUnit]

theorem resetDec_inv (u : DecUnit) : (u.clear.present [] none).Inv := decStartUnit_inv u

/-- `DEC.SYM` keeps the invariant (10_state.md R28). -/
theorem decSymUnit_inv (T : Tables) (sym : Symbol) (last : Bool) {u : DecUnit} (hu : u.Inv) :
    (decSymUnit T sym last u).Inv := by
  rcases decSymUnit_cases T sym last u with
    ⟨hf, h⟩ | ⟨hf, hp, h⟩ | ⟨hf, hp, c, hc, h⟩ | ⟨hf, hp, n, v, hc, h⟩ <;> rw [h]
  · exact ⟨hu.stage_lt, hu.fail_iff, hu.res_eq, hu.empty_rem, hu.closed_rem, hu.closed_cause,
      hu.protocol_closed, hu.padding_rem, hu.misaligned_rem, by simp, by simp⟩
  · exact ⟨hu.stage_lt, by simp, hu.res_eq, hu.empty_rem, hu.closed_rem, by simp, fun _ => hp, by simp,
      by simp, by simp, by simp⟩
  · obtain ⟨-, hcase⟩ := contribution_fail hc
    refine ⟨hu.stage_lt, by simp, hu.res_eq, hu.empty_rem, hu.closed_rem, fun h => absurd h hp, ?_, ?_, ?_,
      by simp, by simp⟩
    · rcases hcase with ⟨-, rfl⟩ | ⟨-, -, rfl⟩ | ⟨t, -, -, -, rfl⟩ | ⟨t, -, -, -, -, rfl⟩ <;> simp
    · rcases hcase with ⟨-, rfl⟩ | ⟨-, -, rfl⟩ | ⟨t, -, -, -, rfl⟩ | ⟨t, -, -, h5, hpad, rfl⟩ <;> simp
      by_contra h6
      rw [show u.drem.toNat - 5 = 0 by omega] at hpad
      omega
    · rcases hcase with ⟨-, rfl⟩ | ⟨-, -, rfl⟩ | ⟨t, -, -, h4, rfl⟩ | ⟨t, -, -, -, -, rfl⟩ <;> simp
      exact h4
  · obtain ⟨hv, hn1, hn2⟩ := contribution_bits_lt hc
    have hd := u.drem.isLt
    have hres := hu.res_eq hp
    have hcnt : 8 ≤ u.drem.toNat + n := by
      cases last with
      | false => have := not_last_count hc; omega
      | true => rcases last_count hres hc with h | h <;> omega
    obtain ⟨k1, k2, k3⟩ := takeBits_stage (residueAdvance u.dres) last u hv hcnt (by omega)
    have hnone : u.dcause = none := by
      by_contra hne
      simp [hu.fail_iff.2 hne] at hf
    refine ⟨k2, by simp [hf, hnone], ?_, ?_, ?_, by simp [hnone], by simp [hnone], by simp [hnone],
      by simp [hnone], by omega, by simp⟩
    · cases last with
      | true => simp [phaseAfter]
      | false =>
        intro _
        apply BitVec.eq_of_toNat_eq
        rw [k1, takeBits_dres, residueAdvance_toNat, hres, not_last_count hc]
        omega
    · cases last <;> simp [phaseAfter]
    · cases last with
      | false => simp [phaseAfter]
      | true =>
        intro _
        apply BitVec.eq_of_toNat_eq
        rw [k1]
        rcases last_count hres hc with h | h <;> simp [h]

/-- A DEC operation emits what its port shows (30_encoding.md R105). -/
theorem decStartUnit_log (u : DecUnit) : (decStartUnit u).log = u.log ++ (decStartUnit u).bytes := rfl

theorem decEndUnit_log (u : DecUnit) : (decEndUnit u).log = u.log ++ (decEndUnit u).bytes := rfl

theorem decSymUnit_log (T : Tables) (sym : Symbol) (last : Bool) (u : DecUnit) :
    (decSymUnit T sym last u).log = u.log ++ (decSymUnit T sym last u).bytes := by
  rcases decSymUnit_cases T sym last u with ⟨-, h⟩ | ⟨-, -, h⟩ | ⟨-, -, c, -, h⟩ | ⟨-, -, n, v, -, h⟩ <;>
    rw [h] <;> simp

end Sys2Proof.Machine
end

