-- ==== Sys2Proof/Laws/ClosedForm.lean ====
section
/-! SUPPORT. The small laws of the closed forms' definitions: bit strings and their numbers
(20_memory.md R63, R64), full groups, whole bytes, and the groups of a symbol string. -/

namespace Sys2Proof.Machine

/-- Reading on from a number. -/
theorem numOf_foldl (l : List Bool) (a : Nat) :
    l.foldl (fun a d => 2 * a + d.toNat) a = a * 2 ^ l.length + numOf l := by
  induction l generalizing a with
  | nil => simp [numOf]
  | cons d l ih =>
    simp only [numOf, List.foldl_cons, List.length_cons]
    rw [ih, ih (2 * 0 + d.toNat), Nat.pow_succ]
    ring

/-- The number of two bit strings one after the other (00_scope.md R12). -/
theorem numOf_append (a b : List Bool) : numOf (a ++ b) = numOf a * 2 ^ b.length + numOf b := by
  rw [numOf, List.foldl_append, numOf_foldl]; rfl

/-- A string's number fits its length. -/
theorem numOf_lt (l : List Bool) : numOf l < 2 ^ l.length := by
  induction l with
  | nil => simp [numOf]
  | cons d l ih =>
    have h : numOf (d :: l) = d.toNat * 2 ^ l.length + numOf l := by
      rw [numOf, List.foldl_cons, numOf_foldl]; simp
    rw [h, List.length_cons, Nat.pow_succ]
    cases d <;> simp <;> omega

/-- The first bits of a string are the top of its number. -/
theorem numOf_take (l : List Bool) (k : Nat) : numOf (l.take k) = numOf l / 2 ^ (l.length - k) := by
  have h := numOf_append (l.take k) (l.drop k)
  rw [List.take_append_drop, List.length_drop] at h
  have hlt := numOf_lt (l.drop k)
  rw [List.length_drop] at hlt
  rw [h, Nat.mul_comm, Nat.mul_add_div (by positivity), Nat.div_eq_of_lt hlt, Nat.add_zero]

/-- The other bits are the rest of it. -/
theorem numOf_drop (l : List Bool) (k : Nat) : numOf (l.drop k) = numOf l % 2 ^ (l.length - k) := by
  have h := numOf_append (l.take k) (l.drop k)
  rw [List.take_append_drop, List.length_drop] at h
  have hlt := numOf_lt (l.drop k)
  rw [List.length_drop] at hlt
  rw [h, Nat.mul_comm, Nat.mul_add_mod, Nat.mod_eq_of_lt hlt]

/-- A binary form has the length asked for. -/
@[simp] theorem length_bitsOf (w v : Nat) : (bitsOf w v).length = w := by simp [bitsOf]

/-- A binary form, bit by bit. -/
theorem bitsOf_succ (w v : Nat) : bitsOf (w + 1) v = v.testBit w :: bitsOf w v := by
  simp only [bitsOf, List.range_succ_eq_map, List.map_cons, List.map_map]
  congr 1
  apply List.map_congr_left
  intro m _
  simp only [Function.comp_apply]
  congr 1
  omega

/-- A value's binary form is a binary form of it. -/
theorem numOf_bitsOf (w v : Nat) : numOf (bitsOf w v) = v % 2 ^ w := by
  induction w with
  | zero => simp [bitsOf, numOf, Nat.mod_one]
  | succ w ih =>
    have h : numOf (v.testBit w :: bitsOf w v) = (v.testBit w).toNat * 2 ^ w + numOf (bitsOf w v) := by
      rw [show v.testBit w :: bitsOf w v = [v.testBit w] ++ bitsOf w v from rfl, numOf_append]
      simp [numOf]
    rw [bitsOf_succ, h, ih, Nat.toNat_testBit, Nat.pow_succ, Nat.mod_mul]
    ring

/-- Strings of one length with one number are one string. -/
theorem numOf_inj {a b : List Bool} (hl : a.length = b.length) (h : numOf a = numOf b) : a = b := by
  induction a generalizing b with
  | nil => cases b with
    | nil => rfl
    | cons _ _ => simp at hl
  | cons x a ih =>
    cases b with
    | nil => simp at hl
    | cons y b =>
      simp only [List.length_cons, Nat.add_right_cancel_iff] at hl
      have e (x : Bool) (l : List Bool) : numOf (x :: l) = x.toNat * 2 ^ l.length + numOf l := by
        rw [show x :: l = [x] ++ l from rfl, numOf_append]; simp [numOf]
      rw [e, e, hl] at h
      have h1 := numOf_lt a
      have h2 := numOf_lt b
      rw [hl] at h1
      have : x = y := by cases x <;> cases y <;> simp at h ⊢ <;> omega
      subst this
      rw [ih hl (by omega)]

/-- A byte is 8 bits. -/
@[simp] theorem length_bitsOfBytes (bs : List Byte) : (bitsOfBytes bs).length = 8 * bs.length := by
  induction bs with
  | nil => rfl
  | cons b bs ih =>
    simp only [bitsOfBytes, List.flatMap_cons, List.length_append, length_bitsOf, List.length_cons] at ih ⊢
    omega

/-- A group is 11 bits. -/
@[simp] theorem length_bitsOfGroups (gs : List Group) : (bitsOfGroups gs).length = 11 * gs.length := by
  induction gs with
  | nil => rfl
  | cons g gs ih =>
    simp only [bitsOfGroups, List.flatMap_cons, List.length_append, length_bitsOf, List.length_cons] at ih ⊢
    omega

/-- Bytes after bytes are bits after bits. -/
theorem bitsOfBytes_append (a b : List Byte) : bitsOfBytes (a ++ b) = bitsOfBytes a ++ bitsOfBytes b := by
  simp [bitsOfBytes]

/-- Groups after groups are bits after bits. -/
theorem bitsOfGroups_append (a b : List Group) : bitsOfGroups (a ++ b) = bitsOfGroups a ++ bitsOfGroups b := by
  simp [bitsOfGroups]

/-- Full groups do not change as bits come after them. -/
theorem fullGroup_append (a b : List Bool) {j : Nat} (h : 11 * (j + 1) ≤ a.length) :
    fullGroup (a ++ b) j = fullGroup a j := by
  unfold fullGroup
  rw [List.drop_append_of_le_length (by omega), List.take_append_of_le_length (by rw [List.length_drop]; omega)]

/-- Whole bytes do not change as bits come after them. -/
theorem bytesOfBits_append (a b : List Bool) :
    bytesOfBits (a ++ b) = bytesOfBits a ++ bytesOfBits (a.drop (8 * (a.length / 8)) ++ b) := by
  set k := a.length / 8 with hk
  have hlen : (a.drop (8 * k) ++ b).length = a.length - 8 * k + b.length := by simp
  have hn : (a ++ b).length / 8 = k + (a.drop (8 * k) ++ b).length / 8 := by
    rw [hlen, List.length_append]; omega
  rw [bytesOfBits, hn, List.range_add, List.map_append, List.map_map]
  congr 1
  · apply List.map_congr_left
    intro q hq
    have hq' : q < k := by simpa using hq
    rw [List.drop_append_of_le_length (by omega), List.take_append_of_le_length (by rw [List.length_drop]; omega)]
  · apply List.map_congr_left
    intro q _
    simp only [Function.comp_apply]
    rw [show 8 * (k + q) = 8 * k + 8 * q by ring, ← List.drop_drop, List.drop_append_of_le_length (by omega)]

/-- 8 to 15 bits hold one whole byte. -/
theorem bytesOfBits_one {l : List Bool} (h₁ : 8 ≤ l.length) (h₂ : l.length < 16) :
    bytesOfBits l = [BitVec.ofNat 8 (numOf l / 2 ^ (l.length - 8))] := by
  have : l.length / 8 = 1 := by omega
  simp only [bytesOfBits, this, List.range_one, List.map_cons, List.map_nil, Nat.mul_zero, List.drop_zero, numOf_take]

/-- 16 to 23 bits hold two. -/
theorem bytesOfBits_two {l : List Bool} (h₁ : 16 ≤ l.length) (h₂ : l.length < 24) :
    bytesOfBits l =
      [BitVec.ofNat 8 (numOf l / 2 ^ (l.length - 8)), BitVec.ofNat 8 (numOf l / 2 ^ (l.length - 16))] := by
  have : l.length / 8 = 2 := by omega
  simp only [bytesOfBits, this, show List.range 2 = [0, 1] from rfl, List.map_cons, List.map_nil,
    Nat.mul_zero, Nat.mul_one, numOf_take, numOf_drop, List.length_drop]
  rw [Nat.sub_zero, Nat.mod_eq_of_lt (numOf_lt l)]
  congr 2
  apply BitVec.eq_of_toNat_eq
  simp only [BitVec.toNat_ofNat]
  have e : 2 ^ (l.length - 8) = 2 ^ (l.length - 8 - 8) * 2 ^ 8 := by rw [← Nat.pow_add]; congr 1; omega
  rw [e, Nat.mod_mul_right_div_self, Nat.mod_mod, show l.length - 8 - 8 = l.length - 16 by omega]

/-- Bits taken by the decoder are bits appended to the string it holds. -/
theorem takeBits_string {u : DecUnit} {L add : List Bool} {n v : Nat} (res1 : BitVec 3) (last : Bool)
    (hL : L.length = u.drem.toNat) (hs : u.dstage.toNat = numOf L) (hn : add.length = n) (hv : numOf add = v)
    (h₁ : 8 ≤ u.drem.toNat + n) (h₂ : u.drem.toNat + n < 24) :
    (takeBits n v res1 last u).log = u.log ++ bytesOfBits (L ++ add) ∧
    (takeBits n v res1 last u).drem.toNat = (L ++ add).length % 8 ∧
    (takeBits n v res1 last u).dstage.toNat = numOf ((L ++ add).drop (8 * ((L ++ add).length / 8))) := by
  have hvlt : v < 2 ^ n := by rw [← hv, ← hn]; exact numOf_lt add
  have hnum : numOf (L ++ add) = u.dstage.toNat * 2 ^ n + v := by rw [numOf_append, hn, hv, hs]
  have hlen : (L ++ add).length = u.drem.toNat + n := by rw [List.length_append, hL, hn]
  rw [numOf_drop, hnum, hlen]
  by_cases h : u.drem.toNat + n < 16
  · rw [takeBits_one res1 last u hvlt h₁ h, bytesOfBits_one (by omega) (by omega), hnum, hlen]
    refine ⟨rfl, ?_, ?_⟩
    · simp only [DecUnit.accept_drem, BitVec.toNat_ofNat]; omega
    · simp only [DecUnit.accept_dstage, BitVec.toNat_ofNat]
      rw [show u.drem.toNat + n - 8 * ((u.drem.toNat + n) / 8) = u.drem.toNat + n - 8 by omega]
      exact Nat.mod_eq_of_lt (lt_of_lt_of_le (Nat.mod_lt _ (by positivity))
        (Nat.pow_le_pow_right (by omega) (by omega)))
  · rw [takeBits_two res1 last u hvlt (by omega) h₂, bytesOfBits_two (by omega) (by omega), hnum, hlen]
    refine ⟨rfl, ?_, ?_⟩
    · simp only [DecUnit.accept_drem, BitVec.toNat_ofNat]; omega
    · simp only [DecUnit.accept_dstage, BitVec.toNat_ofNat]
      rw [show u.drem.toNat + n - 8 * ((u.drem.toNat + n) / 8) = u.drem.toNat + n - 16 by omega]
      exact Nat.mod_eq_of_lt (lt_of_lt_of_le (Nat.mod_lt _ (by positivity))
        (Nat.pow_le_pow_right (by omega) (by omega)))

/-- All symbols primary, the last one taken apart. -/
theorem groupsOf_append (T : Tables) (ss : List Symbol) (x : Symbol) :
    groupsOf T (ss ++ [x]) = match groupsOf T ss, romR T x with
      | some gs, .hit g => some (gs ++ [g])
      | _, _ => none := by
  induction ss with
  | nil =>
    rw [List.nil_append]; unfold groupsOf; rw [groupsOf]
    cases romR T x <;> simp
  | cons s ss ih =>
    rw [List.cons_append]; unfold groupsOf; rw [ih]
    cases romR T s <;> cases groupsOf T ss <;> cases romR T x <;> simp

/-- One group for each symbol. -/
theorem groupsOf_length {T : Tables} {ss : List Symbol} {gs : List Group} (hg : groupsOf T ss = some gs) :
    ss.length = gs.length := by
  induction ss generalizing gs with
  | nil => cases hg; rfl
  | cons y ss ih =>
    rw [groupsOf] at hg
    cases hy : romR T y <;> cases hh : groupsOf T ss <;> rw [hy, hh] at hg <;> simp at hg
    subst hg; simp [ih hh]

/-- Only the final symbol is marked (70_reset_and_hazards.md R249). -/
theorem symbolOps_append (ss : List Symbol) (x : Symbol) :
    symbolOps (ss ++ [x]) = ss.map (fun s => Instr.decSym s false) ++ [.decSym x true] := by
  induction ss with
  | nil => rfl
  | cons s ss ih =>
    cases ss with
    | nil => rfl
    | cons t ss => simp only [List.cons_append] at ih ⊢; rw [symbolOps, ih]; rfl

end Sys2Proof.Machine
end

