-- ==== Sys2Proof/Laws/Decode.lean ====
section
/-! SUPPORT. The fields of a command word as numbers (30_encoding.md R92, R93), and the decoder as a choice
on the opcode. -/

namespace Sys2Proof

theorem encWord_op (w : EncWord) : (w.extractLsb' 8 2).toNat = w.toNat / 2 ^ 8 := by
  have := w.isLt
  rw [BitVec.extractLsb'_toNat, Nat.shiftRight_eq_div_pow, Nat.mod_eq_of_lt]
  omega

theorem encWord_byte (w : EncWord) : (w.extractLsb' 0 8).toNat = w.toNat % 2 ^ 8 := by
  rw [BitVec.extractLsb'_toNat, Nat.shiftRight_zero]

theorem decWord_op (w : DecWord) : (w.extractLsb' 22 2).toNat = w.toNat / 2 ^ 22 := by
  have := w.isLt
  rw [BitVec.extractLsb'_toNat, Nat.shiftRight_eq_div_pow, Nat.mod_eq_of_lt]
  omega

theorem decWord_last (w : DecWord) : (w.getLsbD 21).toNat = w.toNat / 2 ^ 21 % 2 := by
  rw [BitVec.getLsbD, Nat.testBit_eq_decide_div_mod_eq]
  rcases Nat.mod_two_eq_zero_or_one (w.toNat / 2 ^ 21) with h | h <;> rw [h] <;> rfl

theorem decWord_sym (w : DecWord) : (w.extractLsb' 0 21).toNat = w.toNat % 2 ^ 21 := by
  rw [BitVec.extractLsb'_toNat, Nat.shiftRight_zero]

/-- The ENC decoder as a choice on `op` (R94). -/
theorem decodeEnc_eq (w : EncWord) : decodeEnc w =
    if w.toNat / 2 ^ 8 = 0 then .op .encStart
    else if w.toNat / 2 ^ 8 = 1 then .op (.encByte (w.extractLsb' 0 8))
    else if w.toNat / 2 ^ 8 = 2 then .op .encEnd
    else .reserved .enc := by
  rw [← encWord_op]
  unfold decodeEnc
  split <;> simp_all

/-- The DEC decoder as a choice on `op` (R95). -/
theorem decodeDec_eq (w : DecWord) : decodeDec w =
    if w.toNat / 2 ^ 22 = 0 then .op .decStart
    else if w.toNat / 2 ^ 22 = 1 then .op (.decSym (w.extractLsb' 0 21) (w.getLsbD 21))
    else if w.toNat / 2 ^ 22 = 2 then .op .decEnd
    else .reserved .dec := by
  rw [← decWord_op]
  unfold decodeDec
  split <;> simp_all

/-- The bits under a mask of `n` ones above `k` zeros. -/
theorem and_high_mask {x k n : Nat} (h : x < 2 ^ (k + n)) : x &&& (2 ^ n - 1) * 2 ^ k = x / 2 ^ k * 2 ^ k := by
  apply Nat.eq_of_testBit_eq
  intro j
  rw [← Nat.shiftLeft_eq, Nat.testBit_and, Nat.testBit_shiftLeft, ← Nat.shiftLeft_eq, Nat.testBit_shiftLeft,
    ← Nat.shiftRight_eq_div_pow, Nat.testBit_shiftRight, Nat.testBit_two_pow_sub_one]
  by_cases hj : k ≤ j
  · simp only [hj, decide_true, Bool.true_and, show k + (j - k) = j by omega]
    by_cases h2 : j - k < n
    · simp [h2]
    · rw [Nat.testBit_lt_two_pow (lt_of_lt_of_le h (Nat.pow_le_pow_right (by omega) (by omega)))]
      simp
  · simp [hj]

end Sys2Proof
end

