-- ==== Sys2Proof/Laws/Enc.lean ====
section
/-! SUPPORT. What the ENC operations do, arm by arm, as plain arithmetic. -/

namespace Sys2Proof.Machine

/-- The completing arm (40_encoder_ops.md R112): the group's number is the held bits, then the top bits of
the byte; the low bits of the byte stay. -/
theorem encByteUnit_completes (T : Tables) (b : Byte) {u : EncUnit} (hu : u.Inv) (h : 3 ≤ u.erem.toNat) :
    u.estage.toNat * 2 ^ (11 - u.erem.toNat) + b.toNat / 2 ^ (u.erem.toNat - 3) < 2048 ∧
    encByteUnit T b u =
      (u.emitSym (T.primary (BitVec.ofNat 11
        (u.estage.toNat * 2 ^ (11 - u.erem.toNat) + b.toNat / 2 ^ (u.erem.toNat - 3))))).write
        (b.toNat % 2 ^ (u.erem.toNat - 3)) (u.erem.toNat - 3) := by
  obtain ⟨hle, hlt⟩ := hu
  have hb := b.isLt
  have hneed : encNeed u = 11 - u.erem.toNat := rfl
  have hkeep : 8 - encNeed u = u.erem.toNat - 3 := by omega
  have htop : b.toNat / 2 ^ (u.erem.toNat - 3) < 2 ^ (11 - u.erem.toNat) := by
    rw [Nat.div_lt_iff_lt_mul (by positivity), ← Nat.pow_add,
      show 11 - u.erem.toNat + (u.erem.toNat - 3) = 8 by omega]
    exact hb
  constructor
  · have h1 : (u.estage.toNat + 1) * 2 ^ (11 - u.erem.toNat) ≤ 2 ^ u.erem.toNat * 2 ^ (11 - u.erem.toNat) :=
      Nat.mul_le_mul_right _ hlt
    rw [← Nat.pow_add, show u.erem.toNat + (11 - u.erem.toNat) = 11 by omega, Nat.add_mul, Nat.one_mul] at h1
    omega
  · rw [encByteUnit, if_pos (by omega)]
    simp only [completedGroup, hkeep, and_ones, romP]
    rw [concatBits_eq_add _ (by rw [hneed, Nat.shiftRight_eq_div_pow]; exact htop), hneed, Nat.shiftRight_eq_div_pow]

/-- The absorbing arm (R113). -/
theorem encByteUnit_absorbs (T : Tables) (b : Byte) {u : EncUnit} (hu : u.Inv) (h : u.erem.toNat ≤ 2) :
    u.estage.toNat * 256 + b.toNat < 1024 ∧
    encByteUnit T b u = u.emitNothing.write (u.estage.toNat * 256 + b.toNat) (u.erem.toNat + 8) := by
  obtain ⟨-, hlt⟩ := hu
  have hb := b.isLt
  have hneed : encNeed u = 11 - u.erem.toNat := rfl
  have h4 : u.estage.toNat < 2 ^ 2 := lt_of_lt_of_le hlt (Nat.pow_le_pow_right (by omega) h)
  refine ⟨by omega, ?_⟩
  rw [encByteUnit, if_neg (by omega), concatBits_eq_add _ hb]; rfl

/-- The padding of a leftover to `w` bits as a number (30_encoding.md R85, R86). -/
theorem paddedTo_eq (w : Nat) {u : EncUnit} (hu : u.Inv) (h : u.erem.toNat ≤ w) :
    u.estage.toNat * 2 ^ (w - u.erem.toNat) + (2 ^ (w - u.erem.toNat) - 1) < 2 ^ w ∧
    paddedTo w u =
      BitVec.ofNat w (u.estage.toNat * 2 ^ (w - u.erem.toNat) + (2 ^ (w - u.erem.toNat) - 1)) := by
  have hp : 0 < 2 ^ (w - u.erem.toNat) := by positivity
  constructor
  · have h1 : (u.estage.toNat + 1) * 2 ^ (w - u.erem.toNat) ≤ 2 ^ u.erem.toNat * 2 ^ (w - u.erem.toNat) :=
      Nat.mul_le_mul_right _ hu.2
    rw [← Nat.pow_add, show u.erem.toNat + (w - u.erem.toNat) = w by omega, Nat.add_mul, Nat.one_mul] at h1
    omega
  · rw [paddedTo, concatBits_eq_add]
    · rfl
    · simp only [ones]; omega

/-- Every ENC operation keeps the ENC invariant (10_state.md R23). -/
theorem encStartUnit_inv (u : EncUnit) : (encStartUnit u).Inv := by
  simp [EncUnit.Inv, encStartUnit]

theorem encByteUnit_inv (T : Tables) (b : Byte) {u : EncUnit} (hu : u.Inv) : (encByteUnit T b u).Inv := by
  have hle := hu.1
  by_cases h : 3 ≤ u.erem.toNat
  · rw [(encByteUnit_completes T b hu h).2]
    have hr : (BitVec.ofNat 4 (u.erem.toNat - 3)).toNat = u.erem.toNat - 3 := by simp; omega
    have hlt : b.toNat % 2 ^ (u.erem.toNat - 3) < 2 ^ (u.erem.toNat - 3) := Nat.mod_lt _ (by positivity)
    refine ⟨by simp only [EncUnit.write_erem, hr]; omega, ?_⟩
    simp only [EncUnit.write_erem, EncUnit.write_estage, hr]
    exact lt_of_le_of_lt (by simpa using Nat.mod_le _ _) hlt
  · obtain ⟨h1, h2⟩ := encByteUnit_absorbs T b hu (by omega)
    rw [h2]
    have hr : (BitVec.ofNat 4 (u.erem.toNat + 8)).toNat = u.erem.toNat + 8 := by simp; omega
    refine ⟨by simp only [EncUnit.write_erem, hr]; omega, ?_⟩
    simp only [EncUnit.write_erem, EncUnit.write_estage, hr]
    have h3 : u.estage.toNat < 2 ^ u.erem.toNat := hu.2
    have hb := b.isLt
    rw [BitVec.toNat_ofNat, Nat.mod_eq_of_lt (by omega), Nat.pow_add]
    omega

theorem encEndUnit_inv (T : Tables) (u : EncUnit) : (encEndUnit T u).Inv := by
  unfold encEndUnit
  split
  · simp [EncUnit.Inv]
  · split <;> simp [EncUnit.Inv]

/-- An ENC operation emits what its port shows, one symbol at most (30_encoding.md R104). -/
theorem encStartUnit_log (u : EncUnit) :
    (encStartUnit u).log = u.log ++ (encStartUnit u).port.toList := by simp [encStartUnit]

theorem encByteUnit_log (T : Tables) (b : Byte) (u : EncUnit) :
    (encByteUnit T b u).log = u.log ++ (encByteUnit T b u).port.toList := by
  unfold encByteUnit; split <;> simp

theorem encEndUnit_log (T : Tables) (u : EncUnit) :
    (encEndUnit T u).log = u.log ++ (encEndUnit T u).port.toList := by
  unfold encEndUnit; split
  · simp
  · split <;> simp

end Sys2Proof.Machine
end

