-- ==== Sys2Proof/Laws/PerInstr.lean ====
section
/-! SUPPORT. Statements for every operation as syntax, one lemma for each constructor. -/

namespace Sys2Proof.Laws.TableRow

/-- The canonical word of an operation is presented to its unit's port and matches the row of the opcode
table that has its mnemonic (30_encoding.md R91, R94, R95). -/
def Statement (i : Instr) : Prop :=
  (encode i).port = i.port ∧
    ∃ r ∈ opcodeRows, r.mnemonic = i.mnemonic ∧ r.matchesWord (encode i) = true

theorem encStart : Statement .encStart :=
  ⟨rfl, ⟨"ENC.START", .enc, 0x000, 0x300⟩, by decide, by decide, by decide⟩

theorem encByte (b : Byte) : Statement (.encByte b) := by
  have hb := b.isLt
  refine ⟨rfl, ⟨"ENC.BYTE", .enc, 0x100, 0x300⟩, by decide, rfl, ?_⟩
  have h : ∀ b : Byte, (encWord 1 b.toNat).toNat &&& 0x300 = 0x100 := by decide
  simp [OpcodeRow.matchesWord, encode, h b]
  rfl

theorem encEnd : Statement .encEnd :=
  ⟨rfl, ⟨"ENC.END", .enc, 0x200, 0x300⟩, by decide, by decide, by decide⟩

theorem decStart : Statement .decStart :=
  ⟨rfl, ⟨"DEC.START", .dec, 0x000000, 0xC00000⟩, by decide, by decide, by decide⟩

theorem decSym (sym : Symbol) (last : Bool) : Statement (.decSym sym last) := by
  refine ⟨rfl, ⟨"DEC.SYM", .dec, 0x400000, 0xC00000⟩, by decide, rfl, ?_⟩
  have hs := sym.isLt
  have hl : last.toNat ≤ 1 := Bool.toNat_le last
  have hn : (decWord 1 last.toNat sym.toNat).toNat = 2 ^ 22 + (last.toNat * 2 ^ 21 + sym.toNat) := by
    simp only [decWord, CmdWord.toNat, BitVec.toNat_ofNat]
    omega
  have hm : (2 ^ 22 + (last.toNat * 2 ^ 21 + sym.toNat)) &&& 0xC00000 = 0x400000 := by
    have h1 : 2 ^ 22 + (last.toNat * 2 ^ 21 + sym.toNat) =
        Machine.concatBits 1 22 (last.toNat * 2 ^ 21 + sym.toNat) := by
      rw [Machine.concatBits_eq_add _ (by omega)]; omega
    have h2 : (last.toNat * 2 ^ 21 + sym.toNat) &&& 0xC00000 = 0 := by
      apply Nat.eq_of_testBit_eq
      intro j
      rw [Nat.testBit_and, Nat.zero_testBit]
      by_cases hj : j < 22
      · have h3 : Nat.testBit 0xC00000 j = false := by
          have : ∀ j < 22, Nat.testBit 0xC00000 j = false := by decide
          exact this j hj
        rw [h3, Bool.and_false]
      · have h4 : last.toNat * 2 ^ 21 + sym.toNat < 2 ^ j :=
          lt_of_lt_of_le (show _ < 2 ^ 22 by omega) (Nat.pow_le_pow_right (by omega) (by omega))
        rw [Nat.testBit_lt_two_pow h4, Bool.false_and]
    rw [h1, Machine.concatBits, Nat.and_or_distrib_right, h2]
    decide
  simp only [OpcodeRow.matchesWord, encode, hn, hm]
  rfl

theorem decEnd : Statement .decEnd :=
  ⟨rfl, ⟨"DEC.END", .dec, 0x800000, 0xC00000⟩, by decide, by decide, by decide⟩

end Sys2Proof.Laws.TableRow
end

