-- ==== Sys2Proof/Laws/Step.lean ====
section
/-! SUPPORT. Everything an operation and a step can do, said once; operation sequences; units that do not
touch each other. -/

namespace Sys2Proof.Machine

/-- Every operation answers a next state, that of `applyOp` with the tables of the instance. -/
theorem exec_eq_applyOp (i : Instr) (s : State) : exec i s = .next (applyOp Config.tables i s) := by
  cases i <;> rfl

/-- Everything a step that answers a next state can have done. -/
theorem step_next {s t : State} (h : step s = .next t) :
    (s.pending = [] ∧ t = s) ∨
    (∃ rest, s.pending = .reset :: rest ∧ t = ({ s with pending := rest } : State).assertReset) ∨
    (∃ w rest i, s.pending = .command w :: rest ∧ Sys2Proof.decode w = .op i ∧
      t = applyOp Config.tables i { s with pending := rest }) := by
  unfold step at h
  cases hp : s.pending with
  | nil =>
    rw [State.nextEvent_nil hp] at h
    simp only [Host.Outcome.next.injEq] at h
    exact .inl ⟨rfl, h.symm⟩
  | cons e rest =>
    rw [State.nextEvent_cons hp] at h
    cases e with
    | reset =>
      simp only [Host.Outcome.next.injEq] at h
      exact .inr (.inl ⟨rest, rfl, h.symm⟩)
    | command w =>
      simp only at h
      cases hw : Sys2Proof.decode w with
      | op i =>
        rw [hw] at h
        simp only [exec_eq_applyOp, Host.Outcome.next.injEq] at h
        exact .inr (.inr ⟨w, rest, i, rfl, hw, h.symm⟩)
      | reserved p =>
        rw [hw] at h
        cases h

/-- A step refuses only a reserved word. -/
theorem step_refused {s : State} {r : Refusal} (h : step s = .refused r) :
    ∃ w rest p, s.pending = .command w :: rest ∧ Sys2Proof.decode w = .reserved p ∧ r = reservedRefusal p := by
  unfold step at h
  cases hp : s.pending with
  | nil => rw [State.nextEvent_nil hp] at h; cases h
  | cons e rest =>
    rw [State.nextEvent_cons hp] at h
    cases e with
    | reset => cases h
    | command w =>
      simp only at h
      cases hw : Sys2Proof.decode w with
      | op i => rw [hw] at h; simp only [exec_eq_applyOp] at h; cases h
      | reserved p =>
        rw [hw] at h
        simp only [Host.Outcome.refused.injEq] at h
        exact ⟨w, rest, p, rfl, hw, h.symm⟩

/-- The effect of an ENC operation is one on the ENC unit, of a DEC operation one on the DEC unit. -/
theorem applyOp_of_enc {i : Instr} (T : Tables) (h : i.port = .enc) (s : State) :
    (applyOp T i s).dec = s.dec ∧ (applyOp T i s).pending = s.pending ∧
    ∀ s' : State, s'.enc = s.enc → (applyOp T i s').enc = (applyOp T i s).enc := by
  cases i <;> first | (cases h; done) | refine ⟨rfl, rfl, fun s' hs => ?_⟩
  all_goals simp [applyOp, encStartWith, encByteWith, encEndWith, hs]

theorem applyOp_of_dec {i : Instr} (T : Tables) (h : i.port = .dec) (s : State) :
    (applyOp T i s).enc = s.enc ∧ (applyOp T i s).pending = s.pending ∧
    ∀ s' : State, s'.dec = s.dec → (applyOp T i s').dec = (applyOp T i s).dec := by
  cases i <;> first | (cases h; done) | refine ⟨rfl, rfl, fun s' hs => ?_⟩
  all_goals simp [applyOp, decStartWith, decSymWith, decEndWith, hs]

@[simp] theorem runOps_nil (T : Tables) (s : State) : runOps T [] s = s := rfl

@[simp] theorem runOps_cons (T : Tables) (i : Instr) (ops : List Instr) (s : State) :
    runOps T (i :: ops) s = runOps T ops (applyOp T i s) := rfl

theorem runOps_append (T : Tables) (a b : List Instr) (s : State) :
    runOps T (a ++ b) s = runOps T b (runOps T a s) := by simp [runOps]

/-- Every operation keeps the invariant. -/
theorem applyOp_inv (T : Tables) (i : Instr) {s : State} (h : s.Inv) : (applyOp T i s).Inv := by
  cases i with
  | encStart => exact ⟨encStartUnit_inv s.enc, h.dec⟩
  | encByte b => exact ⟨encByteUnit_inv T b h.enc, h.dec⟩
  | encEnd => exact ⟨encEndUnit_inv T s.enc, h.dec⟩
  | decStart => exact ⟨h.enc, decStartUnit_inv s.dec⟩
  | decSym sym last => exact ⟨h.enc, decSymUnit_inv T sym last h.dec⟩
  | decEnd => exact ⟨h.enc, decEndUnit_inv s.dec⟩

end Sys2Proof.Machine
end

