-- ==== Sys2Proof/Laws/Tables.lean ====
section
/-! SUPPORT. What the ROM reads answer (20_memory.md R54, R58, R59), and the step of the tail padding check. -/

namespace Sys2Proof.Machine

/-- The least index of a range with a property. -/
theorem find?_range_eq_some {n : Nat} {p : Nat → Bool} {i : Nat} (h : (List.range n).find? p = some i) :
    i < n ∧ p i = true ∧ ∀ j < i, p j = false := by
  obtain ⟨hp, k, hk, hki, hmin⟩ := List.find?_eq_some_iff_getElem.1 h
  simp only [List.getElem_range] at hki hmin
  subst hki
  refine ⟨by simpa using hk, hp, fun j hj => ?_⟩
  have := hmin j hj
  simpa using this

theorem find?_range_isSome {n : Nat} {p : Nat → Bool} {i : Nat} (h₁ : i < n) (h₂ : p i = true) :
    ∃ j, (List.range n).find? p = some j := by
  rw [← Option.isSome_iff_exists, List.find?_isSome]
  exact ⟨i, by simpa using h₁, h₂⟩

/-- What a hit means: the least group whose primary symbol is `s` (R54, log entry 6). -/
theorem romR_eq_hit_iff {T : Tables} {s : Symbol} {g : Group} :
    romR T s = .hit g ↔ T.primary g = s ∧ ∀ g' : Group, g' < g → T.primary g' ≠ s := by
  constructor
  · intro h
    unfold romR at h
    split at h
    · rename_i i hi
      obtain ⟨hlt, hp, hmin⟩ := find?_range_eq_some hi
      simp only [RevEntry.hit.injEq] at h
      subst h
      refine ⟨by simpa using hp, fun g' hg' => ?_⟩
      have hi' : (BitVec.ofNat 11 i).toNat = i := by simp; omega
      have := hmin g'.toNat (by rw [BitVec.lt_def, hi'] at hg'; exact hg')
      simpa using this
    · cases h
  · rintro ⟨h, hmin⟩
    obtain ⟨j, hj⟩ := find?_range_isSome (n := 2048) (i := g.toNat)
      (p := fun g => decide (T.primary (BitVec.ofNat 11 g) = s)) (by have := g.isLt; omega) (by simpa using h)
    obtain ⟨hlt, hp, hmin'⟩ := find?_range_eq_some hj
    have hjn : (BitVec.ofNat 11 j).toNat = j := by simp; omega
    have hle : ¬ g.toNat < j := fun hc => by
      have := hmin' g.toNat hc
      simp [h] at this
    have hge : ¬ j < g.toNat := fun hc => by
      refine hmin (BitVec.ofNat 11 j) ?_ (by simpa using hp)
      rw [BitVec.lt_def, hjn]; exact hc
    have : BitVec.ofNat 11 j = g := BitVec.eq_of_toNat_eq (by rw [hjn]; omega)
    unfold romR
    rw [hj]
    exact congrArg RevEntry.hit this

/-- What a miss means: no group has that symbol (R54). -/
theorem romR_eq_miss_iff {T : Tables} {s : Symbol} : romR T s = .miss ↔ ∀ g : Group, T.primary g ≠ s := by
  constructor
  · intro h g hg
    obtain ⟨j, hj⟩ := find?_range_isSome (n := 2048) (i := g.toNat)
      (p := fun g => decide (T.primary (BitVec.ofNat 11 g) = s)) (by have := g.isLt; omega) (by simpa using hg)
    unfold romR at h
    rw [hj] at h
    cases h
  · intro h
    unfold romR
    split
    · rename_i i hi
      exact absurd (by simpa using (find?_range_eq_some hi).2.1) (h (BitVec.ofNat 11 i))
    · rfl

/-- What a find means: the least tail index that holds `s` (R59). -/
theorem tailFind_eq_found_iff {T : Tables} {s : Symbol} {i : TailIndex} :
    tailFind T s = .found i ↔ T.tail i = s ∧ ∀ i' : TailIndex, i' < i → T.tail i' ≠ s := by
  constructor
  · intro h
    unfold tailFind at h
    split at h
    · rename_i k hk
      obtain ⟨hlt, hp, hmin⟩ := find?_range_eq_some hk
      simp only [TailEntry.found.injEq] at h
      subst h
      refine ⟨by simpa using hp, fun i' hi' => ?_⟩
      have hk' : (BitVec.ofNat 3 k).toNat = k := by simp; omega
      have := hmin i'.toNat (by rw [BitVec.lt_def, hk'] at hi'; exact hi')
      simpa using this
    · cases h
  · rintro ⟨h, hmin⟩
    obtain ⟨j, hj⟩ := find?_range_isSome (n := 8) (i := i.toNat)
      (p := fun i => decide (T.tail (BitVec.ofNat 3 i) = s)) (by have := i.isLt; omega) (by simpa using h)
    obtain ⟨hlt, hp, hmin'⟩ := find?_range_eq_some hj
    have hjn : (BitVec.ofNat 3 j).toNat = j := by simp; omega
    have hle : ¬ i.toNat < j := fun hc => by
      have := hmin' i.toNat hc
      simp [h] at this
    have hge : ¬ j < i.toNat := fun hc => by
      refine hmin (BitVec.ofNat 3 j) ?_ (by simpa using hp)
      rw [BitVec.lt_def, hjn]; exact hc
    have : BitVec.ofNat 3 j = i := BitVec.eq_of_toNat_eq (by rw [hjn]; omega)
    unfold tailFind
    rw [hj]
    exact congrArg TailEntry.found this

/-- What an absent answer means (R59). -/
theorem tailFind_eq_absent_iff {T : Tables} {s : Symbol} :
    tailFind T s = .absent ↔ ∀ i : TailIndex, T.tail i ≠ s := by
  constructor
  · intro h i hi
    obtain ⟨j, hj⟩ := find?_range_isSome (n := 8) (i := i.toNat)
      (p := fun i => decide (T.tail (BitVec.ofNat 3 i) = s)) (by have := i.isLt; omega) (by simpa using hi)
    unfold tailFind at h
    rw [hj] at h
    cases h
  · intro h
    unfold tailFind
    split
    · rename_i i hi
      exact absurd (by simpa using (find?_range_eq_some hi).2.1) (h (BitVec.ofNat 3 i))
    · rfl

end Sys2Proof.Machine
end

