-- ==== Sys2Proof/Tests/Slice0.lean ====
section
/-! SUPPORT. Tests. Expected values are those of 95_test_vectors.md and of the encoding tables of
30_encoding.md, or follow by hand from the rules named. The witnesses show, for each statement of
Certificates/Slice0/Obligations.lean with hypotheses, a state and operands that meet them all. -/

namespace Sys2Proof.Machine.Tests

/-! ### The test tables (95_test_vectors.md section 1) -/

/-- `TEST_PRIMARY(g) = 0x1000 + g`, `TEST_TAIL(i) = 0x30 + i`. -/
def testTables : Tables :=
  { primary := fun g => BitVec.ofNat 21 (0x1000 + g.toNat), tail := fun i => BitVec.ofNat 21 (0x30 + i.toNat) }

/-- `P[g]`. -/
def P (g : Nat) : Symbol := testTables.primary (BitVec.ofNat 11 g)

/-- `T[i]`. -/
def T (i : Nat) : Symbol := testTables.tail (BitVec.ofNat 3 i)

/-- `X`, a symbol in neither table. -/
def X : Symbol := 0x41#21

theorem testTables_wf : testTables.WF := by
  refine ⟨fun g₁ g₂ h => ?_, fun g i h => ?_, fun i₁ i₂ h => ?_⟩
  · have h' := congrArg BitVec.toNat h
    simp only [testTables, BitVec.toNat_ofNat] at h'
    exact BitVec.eq_of_toNat_eq (by omega)
  · have h' := congrArg BitVec.toNat h
    simp only [testTables, BitVec.toNat_ofNat] at h'
    omega
  · have h' := congrArg BitVec.toNat h
    simp only [testTables, BitVec.toNat_ofNat] at h'
    exact BitVec.eq_of_toNat_eq (by omega)

/-! ### States -/

/-- An ENC unit that holds these values and has emitted nothing. -/
def encHolding (stage rem : Nat) : State :=
  { State.reset with enc := { EncUnit.reset with estage := BitVec.ofNat 10 stage, erem := BitVec.ofNat 4 rem } }

/-- A DEC unit in an open transaction, or in none where nothing is held, with `DRES = DREM`. -/
def decHolding (ph : Phase) (stage rem : Nat) : State :=
  { State.reset with dec := { DecUnit.reset with
      dstage := BitVec.ofNat 7 stage, drem := BitVec.ofNat 3 rem, dres := BitVec.ofNat 3 rem, dph := ph } }

/-- A DEC unit that has failed. -/
def decFailed (ph : Phase) (c : Cause) : State :=
  { State.reset with dec := { DecUnit.reset with dfail := true, dph := ph, dcause := some c } }

/-- A state in which the host has these events still to issue. -/
def issuing (es : List HostEvent) : State := { State.reset with pending := es }

/-- What of the ENC unit an operation leaves: `ESTAGE`, `EREM`, the port. -/
def encView (s : State) : Nat × Nat × Option Symbol := (s.enc.estage.toNat, s.enc.erem.toNat, s.enc.port)

/-- What of the DEC unit an operation leaves: `DSTAGE`, `DREM`, `DRES`, `DPH`, `DCAUSE`, the bytes, the status. -/
structure DecView where
  stage : Nat
  rem : Nat
  res : Nat
  ph : Phase
  cause : Option Cause
  bytes : List Byte
  status : Option Bool
  deriving DecidableEq, Repr

def decView (s : State) : DecView :=
  ⟨s.dec.dstage.toNat, s.dec.drem.toNat, s.dec.dres.toNat, s.dec.dph, s.dec.dcause, s.dec.bytes, s.dec.status⟩

/-! ### WellFormed: each check refuses something ill formed -/

theorem test_wf_refuses_reserved_enc_word : (CmdWord.enc 0x300#10).wellFormed = false := by decide

theorem test_wf_refuses_reserved_dec_word : (CmdWord.dec 0xC00000#24).wellFormed = false := by decide

theorem test_wf_accepts_other_words :
    (CmdWord.enc 0x2FF#10).wellFormed = true ∧ (CmdWord.dec 0xBFFFFF#24).wellFormed = true := by decide

theorem test_wf_refuses_primary_2048 :
    (SymOperand.primary 2048).wellFormed = false ∧ (SymOperand.primary 2047).wellFormed = true := by decide

theorem test_wf_refuses_tail_8 :
    (SymOperand.tail 8).wellFormed = false ∧ (SymOperand.tail 7).wellFormed = true := by decide

theorem test_wf_refuses_wide_literal :
    (SymOperand.literal 0x200000).wellFormed = false ∧ (SymOperand.literal 0x1FFFFF).wellFormed = true := by decide

theorem test_wf_refuses_byte_256 :
    (SourceLine.encByte 256).wellFormed = false ∧ (SourceLine.encode [0, 256]).wellFormed = false ∧
    (SourceLine.decSym (.tail 8) true).wellFormed = false ∧
    (SourceLine.decode [.primary 0, .primary 2048]).wellFormed = false := by decide

theorem test_wf_refuses_tables_not_injective : ¬ (Tables.mk (fun _ => 0#21) testTables.tail).WF := fun h =>
  absurd (h.primary_inj 0#11 1#11 rfl) (by decide)

theorem test_wf_refuses_tables_not_disjoint :
    ¬ (Tables.mk testTables.primary (fun i => testTables.primary (BitVec.ofNat 11 i.toNat))).WF := fun h =>
  h.disjoint 0#11 0#3 rfl

theorem test_wf_refuses_tails_not_injective : ¬ (Tables.mk testTables.primary (fun _ => 0#21)).WF := fun h =>
  absurd (h.tail_inj 0#3 1#3 rfl) (by decide)

/-! ### Decode: words written out from R92 to R96 -/

/-- `00 00000000`, and with the ignored `byte` field set. -/
theorem test_decode_encStart :
    decode (.enc 0b0000000000#10) = .op .encStart ∧ decode (.enc 0b0011111111#10) = .op .encStart := by decide

/-- `01 00010010`: the byte 0x12. -/
theorem test_decode_encByte : decode (.enc 0b0100010010#10) = .op (.encByte 0x12#8) := by decide

/-- `10 00000000`, and with the ignored `byte` field set. -/
theorem test_decode_encEnd :
    decode (.enc 0b1000000000#10) = .op .encEnd ∧ decode (.enc 0b1011111111#10) = .op .encEnd := by decide

/-- `00 0` and 21 zeros, and with the ignored fields set. -/
theorem test_decode_decStart :
    decode (.dec 0b000000000000000000000000#24) = .op .decStart ∧
    decode (.dec 0b001111111111111111111111#24) = .op .decStart := by decide

/-- `01 0` and the symbol 0x16F5; `01 1` and the symbol 0x15DF. -/
theorem test_decode_decSym :
    decode (.dec 0b010000000001011011110101#24) = .op (.decSym 0x16F5#21 false) ∧
    decode (.dec 0b011000000001010111011111#24) = .op (.decSym 0x15DF#21 true) := by decide

/-- `10 0` and 21 zeros, and with the ignored fields set. -/
theorem test_decode_decEnd :
    decode (.dec 0b100000000000000000000000#24) = .op .decEnd ∧
    decode (.dec 0b101111111111111111111111#24) = .op .decEnd := by decide

/-- `op = 11` (R98). -/
theorem test_decode_reserved :
    decode (.enc 0b1100000000#10) = .reserved .enc ∧ decode (.dec 0b110000000000000000000000#24) = .reserved .dec ∧
    step (issuing [.command (.enc 0x3FF#10)]) = .refused .reservedEncWord ∧
    step (issuing [.command (.dec 0xFFFFFF#24)]) = .refused .reservedDecWord := ⟨by decide, by decide, rfl, rfl⟩

/-- The canonical words of 95_test_vectors.md section 5. -/
theorem test_encode_words :
    encode .encStart = .enc 0x000#10 ∧ encode (.encByte 0x56#8) = .enc 0x156#10 ∧ encode .encEnd = .enc 0x200#10 ∧
    encode .decStart = .dec 0x000000#24 ∧ encode (.decSym (T 1) false) = .dec 0x400031#24 ∧
    encode (.decSym (P 1503) true) = .dec 0x6015DF#24 ∧ encode .decEnd = .dec 0x800000#24 := by decide

/-- A value wider than its port's words is none of them (log entry 13). -/
theorem test_tableWord_too_wide :
    decodeTableWord 16 0x400 = none ∧ decodeTableWord 24 0x1000000 = none ∧ decodeTableWord 10 0x1FF = some (.encByte 0xFF#8) :=
  by decide

/-! ### Single operations (95_test_vectors.md section 3) -/

/-- 3.3. -/
theorem test_encStart : encView (applyOp testTables .encStart (encHolding 751 10)) = (0, 0, none) := by decide

/-- Program 1: completing at `EREM = 8`. -/
theorem test_encByte_completes :
    encView (applyOp testTables (.encByte 0x34#8) (encHolding 18 8)) = (20, 5, some 0x1091#21) := by decide

/-- Program 2: absorbing at `EREM = 2`. -/
theorem test_encByte_absorbs :
    encView (applyOp testTables (.encByte 0xEF#8) (encHolding 2 2)) = (751, 10, none) := by decide

/-- 3.2: `EREM = 3` uses the tail table, `EREM = 4` the primary table. -/
theorem test_encEnd_boundary :
    encView (applyOp testTables .encEnd (encHolding 5 3)) = (0, 0, some (T 5)) ∧
    encView (applyOp testTables .encEnd (encHolding 10 4)) = (0, 0, some (P 1407)) := by decide

/-- 3.2: `EREM = 1` and `EREM = 10`. -/
theorem test_encEnd_ends :
    encView (applyOp testTables .encEnd (encHolding 0 1)) = (0, 0, some (T 3)) ∧
    encView (applyOp testTables .encEnd (encHolding 682 10)) = (0, 0, some (P 1365)) := by decide

/-- A failed transaction abandoned (R224). -/
theorem test_decStart :
    decView (applyOp testTables .decStart (decFailed .opened .unknownSymbol)) = ⟨0, 0, 0, .empty, none, [], none⟩ := by
  decide

/-- 3.4: `P[1503]` last at `DREM = 6`, two bytes. -/
theorem test_decSym_lastPrimary :
    decView (applyOp testTables (.decSym (P 1503) true) (decHolding .opened 47 6)) =
      ⟨0, 0, 1, .closed, none, [0xBE#8, 0xEF#8], none⟩ := by decide +kernel

/-- 3.4: `T[5]` last at `DREM = 6`, and refused at `DREM = 7`. -/
theorem test_decSym_tail :
    decView (applyOp testTables (.decSym (T 5) true) (decHolding .opened 21 6)) =
      ⟨0, 0, 1, .closed, none, [0x56#8], none⟩ ∧
    decView (applyOp testTables (.decSym (T 5) true) (decHolding .opened 21 7)) =
      ⟨21, 7, 7, .opened, some .invalidTailPadding, [], none⟩ := by decide +kernel

/-- 3.5: `CLOSED` is OK, `OPEN` is FAIL, and the registers are cleared. -/
theorem test_decEnd :
    decView (applyOp testTables .decEnd (decHolding .closed 0 0)) = ⟨0, 0, 0, .empty, none, [], some true⟩ ∧
    decView (applyOp testTables .decEnd (decHolding .opened 63 6)) = ⟨0, 0, 0, .empty, none, [], some false⟩ := by
  decide

/-- The codes of `DPH` (10_state.md R34) and of `DCAUSE` (60_exceptions.md R210). -/
theorem test_codes :
    [Phase.empty, .opened, .closed].map Phase.code = [0#2, 1#2, 2#2] ∧
    [none, some .prematureSentinel, some .unknownSymbol, some .invalidTailPadding, some .tailMisaligned,
      some .protocolViolation].map causeCode = [0#3, 1#3, 2#3, 3#3, 4#3, 5#3] := by decide

/-- The ports as signals: two bytes, and `byte1` not valid after one (30_encoding.md R105). -/
theorem test_ports :
    (DecUnit.reset.present [0xBE#8, 0xEF#8] none).byteCount = 2#2 ∧
    (DecUnit.reset.present [0xBE#8, 0xEF#8] none).byte1 = some 0xEF#8 ∧
    (DecUnit.reset.present [0x56#8] none).byte1 = none ∧ (DecUnit.reset.present [] (some true)).done = true := by decide

/-! ### The assembler (95_test_vectors.md section 5) -/

/-- Lines of Programs 1 to 3, with their comments. -/
theorem test_assembler :
    assembleText testTables ["ENC.START            ; word 0x000", "ENC.BYTE 0x12", "ENC.BYTE 52", "ENC.END"] =
      some [.encStart, .encByte 0x12#8, .encByte 0x34#8, .encEnd] ∧
    assembleText testTables ["DEC.SYM   P[1781]    ; word 0x4016F5", "DEC.SYM.L T[1]", "DEC.SYM.L U+0041", ""] =
      some [.decSym 0x16F5#21 false, .decSym 0x31#21 true, .decSym 0x41#21 true] ∧
    assembleText testTables ["ENCODE 1, 0x02", "DECODE P[0], T[7]"] =
      some [.encStart, .encByte 1#8, .encByte 2#8, .encEnd, .decStart, .decSym 0x1000#21 false, .decSym 0x37#21 true,
        .decEnd] ∧
    assembleText testTables ["ENC.BYTE 256"] = none ∧ assembleText testTables ["ENC.STOP"] = none := by decide +kernel

/-! ### Witnesses: hypotheses met -/

/-- The symbol of group 0 of the instance is a hit, whatever the tables are. -/
theorem romR_primary_zero (T : Tables) : romR T (T.primary 0#11) = .hit 0#11 :=
  romR_eq_hit_iff.2 ⟨rfl, fun g' h => absurd h (by simp)⟩

theorem romR_X : romR testTables X = .miss := by decide +kernel

theorem romR_tail (i : TailIndex) : romR testTables (testTables.tail i) = .miss :=
  romR_eq_miss_iff.2 fun g => testTables_wf.disjoint g i

theorem tailFind_tail : ∀ i : TailIndex, tailFind testTables (testTables.tail i) = .found i := by decide

theorem witness_DecodedWordIsCanonicalUpToIgnoredFields :
    decode (.enc 0x0FF#10) = .op .encStart ∧ decode (.enc 0x1FF#10) = .op (.encByte 0xFF#8) ∧
    decode (.enc 0x2FF#10) = .op .encEnd ∧ decode (.dec 0x3FFFFF#24) = .op .decStart ∧
    decode (.dec 0x7FFFFF#24) = .op (.decSym 0x1FFFFF#21 true) ∧ decode (.dec 0xBFFFFF#24) = .op .decEnd := by decide

theorem witness_DecoderFollowsOpcodeTable :
    ∀ r ∈ opcodeRows, r.matchesWord
      (match r.port with
        | .enc => .enc (BitVec.ofNat 10 r.pattern)
        | .dec => .dec (BitVec.ofNat 24 r.pattern)) = true := by decide

theorem witness_PseudoOperationsExpand :
    (∀ b ∈ [0, 255], b < 256) ∧
    (∀ s ∈ [SymOperand.primary 2047, .literal 0x1FFFFF], s.wellFormed = true) ∧ (SymOperand.tail 7).wellFormed = true :=
  by decide

theorem witness_StepRunsDecodedOperation :
    (issuing [.command (.dec 0x6015DF#24), .reset]).pending = .command (.dec 0x6015DF#24) :: [.reset] ∧
    decode (.dec 0x6015DF#24) = .op (.decSym 0x15DF#21 true) := by decide

theorem witness_PlacedWordRunsNext :
    decodeTableWord 16 0x1FF = some (.encByte 0xFF#8) ∧
    decodeTableWord 24 0x7FFFFF = some (.decSym 0x1FFFFF#21 true) := by decide

theorem witness_StepWithNothingIssuedChangesNothing : (encHolding 751 10).pending = [] := rfl

theorem witness_ResetInputClearsBothUnits :
    (issuing [.reset, .command (.enc 0x200#10)]).pending = .reset :: [.command (.enc 0x200#10)] := rfl

/-- The invariant holds of every register value the tables of R24 and R27 give. -/
theorem encHolding_inv : (encHolding 0 0).enc.Inv ∧ (encHolding 3 2).enc.Inv ∧ (encHolding 7 3).enc.Inv ∧
    (encHolding 1 1).enc.Inv ∧ (encHolding 15 4).enc.Inv ∧ (encHolding 1023 10).enc.Inv := by decide

theorem decHolding_inv {stage rem : Nat} (h₁ : rem < 8) (h₂ : stage < 2 ^ rem) :
    (decHolding .opened stage rem).dec.Inv := by
  have hr : (BitVec.ofNat 3 rem).toNat = rem := by simp; omega
  have h3 : stage < 2 ^ 7 := lt_of_lt_of_le h₂ (Nat.pow_le_pow_right (by omega) (by omega))
  constructor <;> simp [decHolding, DecUnit.reset]
  have hr' : rem % 8 = rem := by omega
  rw [hr', Nat.mod_eq_of_lt (by omega)]
  exact h₂

theorem reset_dec_inv : State.reset.dec.Inv := by constructor <;> simp [State.reset, DecUnit.reset]

theorem witness_EveryStepKeepsInvariant :
    ∃ s t : State, s.Inv ∧ s.pending ≠ [] ∧ step s = .next t :=
  ⟨issuing [.command (.enc 0x1FF#10)], _, ⟨by decide, reset_dec_inv⟩, by decide, rfl⟩

theorem witness_StartWords : (0x0FF#10 : EncWord).toNat / 2 ^ 8 = 0 ∧ (0x3FFFFF#24 : DecWord).toNat / 2 ^ 22 = 0 := by
  decide

theorem witness_EncByteCompletesGroup :
    ((encHolding 7 3).enc.Inv ∧ 3 ≤ (encHolding 7 3).enc.erem.toNat) ∧
    ((encHolding 1023 10).enc.Inv ∧ 3 ≤ (encHolding 1023 10).enc.erem.toNat) := by decide

theorem witness_EncByteAbsorbsByte :
    ((encHolding 0 0).enc.Inv ∧ (encHolding 0 0).enc.erem.toNat ≤ 2) ∧
    ((encHolding 3 2).enc.Inv ∧ (encHolding 3 2).enc.erem.toNat ≤ 2) := by decide

theorem witness_EncByteConservesBits :
    ∃ t, (encHolding 7 3).enc.Inv ∧ exec (.encByte 0xFF#8) (encHolding 7 3) = .next t := ⟨_, by decide, rfl⟩

theorem witness_EncEndOfEmptyAccumulator : (encHolding 0 0).enc.erem = 0#4 := by decide

theorem witness_EncEndSendsTailSymbol :
    ((encHolding 1 1).enc.Inv ∧ 1 ≤ (encHolding 1 1).enc.erem.toNat ∧ (encHolding 1 1).enc.erem.toNat ≤ 3) ∧
    ((encHolding 7 3).enc.Inv ∧ 1 ≤ (encHolding 7 3).enc.erem.toNat ∧ (encHolding 7 3).enc.erem.toNat ≤ 3) := by decide

theorem witness_EncEndSendsFinalPrimarySymbol :
    ((encHolding 15 4).enc.Inv ∧ 4 ≤ (encHolding 15 4).enc.erem.toNat) ∧
    ((encHolding 1023 10).enc.Inv ∧ 4 ≤ (encHolding 1023 10).enc.erem.toNat) := by decide

theorem witness_EncOperationsFrame :
    ∀ b : Byte, ∀ i ∈ [Instr.encStart, .encByte b, .encEnd],
      i.port = .enc ∧ ∃ t, exec i (encHolding 7 3) = .next t := fun b i hi =>
  ⟨by fin_cases hi <;> rfl, _, exec_eq_applyOp i _⟩

/-- Hypotheses of both statements on primary symbols, at `DREM` 4 (one byte either way), 5 and 7 (two bytes). -/
theorem witness_DecSymTakesPrimarySymbol (rem : Nat) (h : rem ∈ [0, 4, 5, 7]) :
    (decHolding .opened (2 ^ rem - 1) rem).dec.Inv ∧ (decHolding .opened (2 ^ rem - 1) rem).dec.dfail = false ∧
    (decHolding .opened (2 ^ rem - 1) rem).dec.dph ≠ .closed ∧
    (decHolding .opened (2 ^ rem - 1) rem).dec.drem.toNat = rem ∧
    romR Config.tables (Config.primaryTable 0#11) = .hit 0#11 := by
  refine ⟨decHolding_inv ?_ ?_, rfl, by simp [decHolding], ?_, romR_primary_zero Config.tables⟩ <;>
    fin_cases h <;> decide

theorem witness_DecSymTakesLastPrimarySymbol : State.reset.dec.Inv ∧ State.reset.dec.dfail = false ∧
    State.reset.dec.dph ≠ .closed ∧ romR Config.tables (Config.primaryTable 0#11) = .hit 0#11 :=
  ⟨reset_dec_inv, rfl, by decide, romR_primary_zero Config.tables⟩

/-- The three clauses at their boundaries: `DREM` 0 and 4 (misaligned), 5 with every index (no padding), 6 and 7
with the padding set and not set. -/
theorem witness_DecSymResolvesTailSymbol (rem : Nat) (h : rem ∈ [0, 4, 5, 6, 7]) (i : TailIndex) :
    (decHolding .opened 0 rem).dec.Inv ∧ (decHolding .opened 0 rem).dec.dfail = false ∧
    (decHolding .opened 0 rem).dec.dph ≠ .closed ∧ (decHolding .opened 0 rem).dec.drem.toNat = rem ∧
    romR testTables (testTables.tail i) = .miss ∧ tailFind testTables (testTables.tail i) = .found i := by
  refine ⟨decHolding_inv ?_ ?_, rfl, by simp [decHolding], ?_, romR_tail i, tailFind_tail i⟩ <;>
    fin_cases h <;> decide

theorem witness_DecSymResolvesTailSymbol_padding :
    (∀ t : TailIndex, t.toNat % 2 ^ (5 - 5) = 2 ^ (5 - 5) - 1) ∧
    4 % 2 ^ (6 - 5) ≠ 2 ^ (6 - 5) - 1 ∧ 5 % 2 ^ (6 - 5) = 2 ^ (6 - 5) - 1 ∧
    5 % 2 ^ (7 - 5) ≠ 2 ^ (7 - 5) - 1 ∧ 7 % 2 ^ (7 - 5) = 2 ^ (7 - 5) - 1 := by decide

/-- `X` for both clauses; a tail symbol for the first. -/
theorem witness_DecSymFailsOnSentinel :
    (decHolding .opened 0 3).dec.dfail = false ∧ (decHolding .opened 0 3).dec.dph ≠ .closed ∧
    (∀ g, testTables.primary g ≠ X) ∧ (∀ i, testTables.tail i ≠ X) ∧
    (∀ g, testTables.primary g ≠ testTables.tail 1#3) :=
  ⟨rfl, by decide, romR_eq_miss_iff.1 romR_X, by decide, fun g => testTables_wf.disjoint g 1#3⟩

theorem witness_DecSymIgnoredAfterFailure : (decFailed .opened .prematureSentinel).dec.dfail = true := rfl

theorem witness_DecSymAfterLastViolatesProtocol :
    (decHolding .closed 0 0).dec.dfail = false ∧ (decHolding .closed 0 0).dec.dph = .closed := ⟨rfl, rfl⟩

/-- Each cause is reached (60_exceptions.md R210). -/
theorem witness_FailingSymWritesOnlyFlags :
    (applyOp testTables (.decSym (T 1) false) (decHolding .opened 5 3)).dec.dcause = some .prematureSentinel ∧
    (applyOp testTables (.decSym X true) (decHolding .opened 5 6)).dec.dcause = some .unknownSymbol ∧
    (applyOp testTables (.decSym (T 4) true) (decHolding .opened 5 6)).dec.dcause = some .invalidTailPadding ∧
    (applyOp testTables (.decSym (T 7) true) (decHolding .opened 5 4)).dec.dcause = some .tailMisaligned ∧
    (applyOp testTables (.decSym (P 7) true) (decHolding .closed 0 0)).dec.dcause = some .protocolViolation ∧
    (decHolding .opened 5 3).dec.dfail = false ∧
    (applyOp testTables (.decSym (T 1) false) (decHolding .opened 5 3)).dec.dfail = true := by decide +kernel

theorem witness_FailureStandsUntilEnd : (decFailed .closed .protocolViolation).dec.dfail = true := rfl

theorem witness_SuccessfulSymEmitsBytes :
    ∀ last : Bool, ∃ t, State.reset.dec.Inv ∧ State.reset.dec.dfail = false ∧
      exec (.decSym (Config.primaryTable 0#11) last) State.reset = .next t ∧ t.dec.dfail = false := by
  intro last
  have hr : romR Config.tables (Config.primaryTable 0#11) = .hit 0#11 := romR_primary_zero Config.tables
  refine ⟨_, reset_dec_inv, rfl, exec_eq_applyOp _ _, ?_⟩
  have hd : State.reset.dec.dfail = false := rfl
  simp only [applyOp, decSymWith, State.withDec_dec]
  rcases decSymUnit_cases Config.tables (Config.primaryTable 0#11) last State.reset.dec with
    ⟨h, -⟩ | ⟨-, h, -⟩ | ⟨-, -, c, h, -⟩ | ⟨-, -, n, v, -, h⟩
  · cases h
  · cases h
  · rw [contribution_of_hit hr] at h
    cases last <;> cases h
  · rw [h, takeBits_dfail]; exact hd

theorem witness_NoBitHeldAtSuccessfulEnd :
    ∃ t, State.reset.dec.Inv ∧ exec .decEnd State.reset = .next t ∧ t.dec.status = some true :=
  ⟨_, reset_dec_inv, rfl, rfl⟩

theorem witness_DecOperationsFrame :
    ∀ s : Symbol, ∀ i ∈ [Instr.decStart, .decSym s false, .decSym s true, .decEnd],
      i.port = .dec ∧ ∃ t, exec i (decHolding .opened 5 3) = .next t := fun s i hi =>
  ⟨by fin_cases hi <;> rfl, _, exec_eq_applyOp i _⟩

/-- The table invariants, for every statement on well-formed tables; and a symbol outside both tables. -/
theorem witness_LookupsInvertTables :
    testTables.WF ∧ (∀ g, testTables.primary g ≠ X) ∧ ∀ i, testTables.tail i ≠ X :=
  ⟨testTables_wf, romR_eq_miss_iff.1 romR_X, by decide⟩

theorem witness_EncoderHoldsLeftoverBits : State.reset.enc.estage = 0#10 ∧ State.reset.enc.erem = 0#4 := ⟨rfl, rfl⟩

theorem witness_DecoderHoldsLeftoverBits : testTables.WF := testTables_wf

theorem witness_DecodeOfEncodeIsIdentity : testTables.WF := testTables_wf

/-- Two symbols that differ in the dropped bits only: `P[7]` and `P[0]` alone (30_encoding.md R90). -/
theorem witness_DroppedBitsAreNotChecked :
    testTables.WF ∧ (7#11 : Group) ≠ 0#11 ∧
    (7#11 : Group).toNat / 2 ^ (11 * (0 + 1) % 8) = (0#11 : Group).toNat / 2 ^ (11 * (0 + 1) % 8) :=
  ⟨testTables_wf, by decide, by decide⟩

/-- `P[0] P[0] T[0]` and `P[0]` five times, `T[5]` (95_test_vectors.md section 4.2); and a symbol in no table. -/
theorem witness_MalformedStringsAreRejected :
    testTables.WF ∧ (∀ g, testTables.primary g ≠ X) ∧ (∀ i, testTables.tail i ≠ X) ∧
    5 ≤ 11 * [P 0, P 0].length % 8 ∧
    (0#3 : TailIndex).toNat % 2 ^ (11 * [P 0, P 0].length % 8 - 5) ≠ 2 ^ (11 * [P 0, P 0].length % 8 - 5) - 1 :=
  ⟨testTables_wf, romR_eq_miss_iff.1 romR_X, by decide, by decide, by decide⟩

theorem witness_StartIsOptionalWhenClear : State.reset.Clear := ⟨rfl, rfl, rfl, rfl, rfl, rfl, rfl, rfl⟩

theorem witness_UnitsAreIndependent : (encHolding 1 1).enc = ({ encHolding 1 1 with pending := [.reset] } : State).enc :=
  rfl

/-- Two transactions back to back, one of them abandoned; and a transaction that is ready for its `DEC.END`. -/
theorem witness_WellMarkedOpsViolateNoProtocol :
    State.reset.Clear ∧ wellMarked [.decSym (P 0) false, .decSym (P 63) true, .decEnd, .decSym (P 0) false, .decStart,
      .encByte 0#8, .decSym (P 7) true, .decEnd] = true ∧
    wellMarked ([.decSym (P 0) false, .decSym (P 63) true] ++ [.decEnd]) = true :=
  ⟨⟨rfl, rfl, rfl, rfl, rfl, rfl, rfl, rfl⟩, by decide, by decide⟩

/-- The violations the check of R249 rules out: a `DEC.SYM` after the last, a `DEC.END` with none marked last. -/
theorem test_wellMarked_refuses :
    wellMarked [.decSym (P 7) true, .decSym (P 7) true] = false ∧ wellMarked [.decSym (P 0) false, .decEnd] = false := by
  decide

theorem witness_MachineRunsEncode :
    (issuing (issued (encodeOps [0x12#8, 0x34#8]) ++ [.reset])).pending =
      issued (encodeOps [0x12#8, 0x34#8]) ++ [.reset] := rfl

theorem witness_MachineRunsDecode :
    (issuing (issued (decodeOps [X, X]) ++ [.reset])).pending = issued (decodeOps [X, X]) ++ [.reset] := rfl

end Sys2Proof.Machine.Tests
end

section
/-! The stored words of ROM R (20_memory.md R61). -/

namespace Sys2Proof.Machine

/-- A stored group is the group with a clear bit 11 in front of it. -/
theorem RevEntry.toWord_hit (g : Group) : (RevEntry.hit g).toWord = g.setWidth 12 :=
  BitVec.ofNat_toNat 12 g

@[simp] theorem RevEntry.toWord_miss : RevEntry.miss.toWord = 0xFFF#12 := rfl

@[simp] theorem RevEntry.toNat_toWord_hit (g : Group) : (RevEntry.hit g).toWord.toNat = g.toNat := by
  rw [RevEntry.toWord_hit, BitVec.toNat_setWidth_of_le (by decide)]

/-- Bit 11 of a stored word is set for a miss alone. -/
theorem RevEntry.getLsbD_toWord_iff (e : RevEntry) : e.toWord.getLsbD 11 = true ↔ e = .miss := by
  cases e with
  | hit g => simp [RevEntry.toWord_hit]
  | miss => simp

theorem RevEntry.ofWord_of_set {w : BitVec 12} (h : w.getLsbD 11 = true) : RevEntry.ofWord w = .miss :=
  if_pos h

theorem RevEntry.ofWord_of_clear {w : BitVec 12} (h : ¬ w.getLsbD 11 = true) :
    RevEntry.ofWord w = .hit (w.extractLsb' 0 11) :=
  if_neg h

theorem RevEntry.ofWord_eq_miss_iff (w : BitVec 12) : RevEntry.ofWord w = .miss ↔ w.getLsbD 11 = true := by
  refine ⟨fun hmiss => ?_, RevEntry.ofWord_of_set⟩
  by_contra hclear
  rw [RevEntry.ofWord_of_clear hclear] at hmiss
  cases hmiss

theorem RevEntry.ofWord_toWord (e : RevEntry) : RevEntry.ofWord e.toWord = e := by
  cases e with
  | hit g =>
    have hclear : ¬ (RevEntry.hit g).toWord.getLsbD 11 = true :=
      (RevEntry.getLsbD_toWord_iff _).not.2 nofun
    have hlow : (RevEntry.hit g).toWord.extractLsb' 0 11 = g :=
      BitVec.eq_of_toNat_eq (by simp [Nat.mod_eq_of_lt g.isLt])
    rw [RevEntry.ofWord_of_clear hclear, hlow]
  | miss => rfl

/-- Settles O6: the round trip and the test of bit 11, each by the two kinds of entry. -/
theorem reverseRomWordReadsBack : Obligations.ReverseRomWordReadsBack := by
  refine ⟨fun e => ⟨e.ofWord_toWord, e.getLsbD_toWord_iff, ?_, ?_⟩, RevEntry.ofWord_eq_miss_iff⟩
  · rintro rfl
    exact RevEntry.toWord_miss
  · rintro g rfl
    exact RevEntry.toNat_toWord_hit g

end Sys2Proof.Machine
end

section
/-! What the lookups answer under the table invariants (20_memory.md R52 to R55, R58, R59). -/

namespace Sys2Proof.Machine

variable {T : Tables}

/-- Under P-INJ (R52) no smaller group has the symbol of `g`, so the least one is `g`. -/
theorem romR_romP (hT : T.WF) (g : Group) : romR T (romP T g) = .hit g :=
  romR_eq_hit_iff.2 ⟨rfl, fun g' hlt heq => BitVec.ne_of_lt hlt (hT.primary_inj g' g heq)⟩

theorem romR_romT (hT : T.WF) (i : TailIndex) : romR T (romT T i) = .miss :=
  romR_eq_miss_iff.2 fun g => hT.disjoint g i

/-- Under T-INJ (R55) no smaller index holds the symbol of `i`, so the search stops at `i`. -/
theorem tailFind_romT (hT : T.WF) (i : TailIndex) : tailFind T (romT T i) = .found i :=
  tailFind_eq_found_iff.2 ⟨rfl, fun i' hlt heq => BitVec.ne_of_lt hlt (hT.tail_inj i' i heq)⟩

theorem tailFind_romP (hT : T.WF) (g : Group) : tailFind T (romP T g) = .absent :=
  tailFind_eq_absent_iff.2 fun i => (hT.disjoint g i).symm

/-- Settles O41: injectivity gives the two inverses, disjointness the two misses between the tables, and a
symbol outside a table is missed by what a miss means. -/
theorem lookupsInvertTables : Obligations.LookupsInvertTables := fun _ hT =>
  ⟨romR_romP hT, romR_romT hT, fun _ => romR_eq_miss_iff.2, tailFind_romT hT,
    fun _ => tailFind_eq_absent_iff.2, tailFind_romP hT⟩

end Sys2Proof.Machine
end

section
/-! The expansions of the pseudo-operations (30_encoding.md R102). -/

namespace Sys2Proof.Machine

theorem assemble_encode (T : Tables) {bs : List Nat} (hbs : ∀ b ∈ bs, b < 256) :
    assemble T (.encode bs) = some (encodeOps (bs.map (BitVec.ofNat 8))) :=
  if_pos (show bs.all (fun b => decide (b < 256)) = true by simpa using hbs)

theorem assemble_decode (T : Tables) {ss : List SymOperand} (hss : ∀ s ∈ ss, s.wellFormed = true) :
    assemble T (.decode ss) = some (decodeOps (ss.map (symbolOf T))) :=
  if_pos (List.all_eq_true.2 hss)

/-- Settles O7: in-range operands pass the assembler's check, and of the symbols of `ss ++ [x]` that of `x` alone
is marked last (`symbolOps_append`). -/
theorem pseudoOperationsExpand : Obligations.PseudoOperationsExpand := by
  refine fun T => ⟨fun bs hbs => ?_, assemble_decode T nofun, fun ss x hss hx => ?_⟩
  · rw [assemble_encode T hbs]
    simp [encodeOps, Function.comp_def]
  · have hall : ∀ s ∈ ss ++ [x], s.wellFormed = true :=
      List.forall_mem_append.2 ⟨hss, List.forall_mem_singleton.2 hx⟩
    rw [assemble_decode T hall, List.map_append, List.map_singleton, decodeOps, symbolOps_append]
    simp

end Sys2Proof.Machine
end

section
/-! Transactions of the two units, from their start operation to their end (42_whole_buffer_functions.md R180, R185). -/

namespace Sys2Proof.Machine

/-- `DEC.SYM` operations are issued symbol by symbol; the one with nothing after it is marked last (R185). -/
theorem symbolOps_cons (x : Symbol) (ss : List Symbol) :
    symbolOps (x :: ss) = .decSym x ss.isEmpty :: symbolOps ss := by
  cases ss <;> rfl

/-- No symbol that another one follows is marked last. -/
theorem symbolOps_append_cons (init : List Symbol) (x : Symbol) (rest : List Symbol) :
    symbolOps (init ++ x :: rest) = init.map (Instr.decSym · false) ++ symbolOps (x :: rest) := by
  induction init with
  | nil => rfl
  | cons y init ih => simp [symbolOps_cons y, ih]

/-- The state in which the transaction of `decode` comes to its `DEC.END`. -/
def beforeDecEnd (T : Tables) (s : State) (ss : List Symbol) : State :=
  runOps T (symbolOps ss) (applyOp T .decStart s)

/-- What `decode` gives is decided by what `DEC.END` finds: its status (R171) and the bytes emitted by then (R172). -/
theorem decodeFrom_eq (T : Tables) (s : State) (ss : List Symbol) :
    decodeFrom T s ss =
      if decEndOk (beforeDecEnd T s ss).dec = true
      then some ((beforeDecEnd T s ss).dec.log.drop s.dec.log.length) else none := by
  have hend : runOps T (decodeOps ss) s = decEndWith T (beforeDecEnd T s ss) := runOps_append T _ _ _
  simp only [decodeFrom, hend, decEndWith, decEndUnit, State.withDec_dec, DecUnit.clear_status, DecUnit.clear_log,
    DecUnit.present_status, DecUnit.present_log, List.append_nil, Option.some.injEq]

/-- A transaction that has failed before its `DEC.END` decodes to nothing. -/
theorem decodeFrom_eq_none_of_dfail {T : Tables} {s : State} {ss : List Symbol}
    (h : (beforeDecEnd T s ss).dec.dfail = true) : decodeFrom T s ss = none := by
  rw [decodeFrom_eq, if_neg (by simp [decEndOk, h])]

/-- `ENC.END` on an empty accumulator (R117). -/
theorem encEndUnit_of_empty (T : Tables) {u : EncUnit} (h : u.erem = 0#4) : encEndUnit T u = u.emitNothing.clear :=
  if_pos (by rw [h]; rfl)

/-- Settles O52: each end operation finds the unit as its start operation left it, clear, so that `ENC.END` takes
its empty arm and `DEC.END` reports `OK`. -/
theorem emptyInputBothWays : Obligations.EmptyInputBothWays := by
  refine fun T s => ⟨?_, ?_⟩
  · have hunit : (runOps T (encodeOps []) s).enc = (encStartUnit s.enc).emitNothing.clear :=
      encEndUnit_of_empty T (u := encStartUnit s.enc) rfl
    simp [encodeFrom, hunit, encStartUnit]
  · have hunit : (beforeDecEnd T s []).dec = s.dec.clear.present [] none := rfl
    simp [decodeFrom_eq, hunit, decEndOk]

end Sys2Proof.Machine
end

section
/-! Malformed strings (42_whole_buffer_functions.md R191): the symbol that fails its test puts the transaction in
failure, wherever it stands, and the failure is what `DEC.END` reports. -/

namespace Sys2Proof.Machine

variable {T : Tables}

/-- A failed unit ignores symbols (R142), and stays failed. -/
theorem decSymUnit_dfail_of_dfail (sym : Symbol) (last : Bool) {u : DecUnit} (h : u.dfail = true) :
    (decSymUnit T sym last u).dfail = true := by
  rw [decSymUnit, if_pos h]
  exact h

theorem runOps_symbolOps_dfail (ss : List Symbol) {s : State} (h : s.dec.dfail = true) :
    (runOps T (symbolOps ss) s).dec.dfail = true := by
  induction ss generalizing s with
  | nil => exact h
  | cons x ss ih =>
    rw [symbolOps_cons, runOps_cons]
    exact ih (decSymUnit_dfail_of_dfail x _ h)

/-- What a unit can have come to after `k` symbols of a string, none of them last: it has failed, or it takes
another symbol and holds the `11k mod 8` bits that complete no byte (10_state.md R27, R29). -/
def DecUnit.FailedOrHolds (u : DecUnit) (k : Nat) : Prop :=
  u.dfail = true ∨ (u.dfail = false ∧ u.dph ≠ .closed ∧ u.drem.toNat = 11 * k % 8)

/-- One more symbol that is not last: it fails, or brings 11 bits (R153). -/
theorem decSymUnit_failedOrHolds (sym : Symbol) {u : DecUnit} {k : Nat} (hu : u.FailedOrHolds k) :
    (decSymUnit T sym false u).FailedOrHolds (k + 1) := by
  rcases decSymUnit_cases T sym false u with
    ⟨hf, -⟩ | ⟨-, -, h⟩ | ⟨-, -, c, -, h⟩ | ⟨hf, -, n, v, hc, h⟩
  · exact .inl (decSymUnit_dfail_of_dfail sym false hf)
  · exact .inl (by rw [h]; rfl)
  · exact .inl (by rw [h]; rfl)
  · have hrem : u.drem.toNat = 11 * k % 8 := by
      rcases hu with hfail | ⟨-, -, hrem⟩
      · simp [hf] at hfail
      · exact hrem
    obtain rfl := not_last_count hc
    obtain ⟨hv, -, -⟩ := contribution_bits_lt hc
    obtain ⟨hdrem, -, -⟩ := takeBits_stage (residueAdvance u.dres) false u hv (by omega) (by omega)
    rw [h]
    exact .inr ⟨hf, by simp [phaseAfter], by omega⟩

theorem runOps_failedOrHolds (init : List Symbol) {s : State} {k : Nat} (hs : s.dec.FailedOrHolds k) :
    (runOps T (init.map (Instr.decSym · false)) s).dec.FailedOrHolds (k + init.length) := by
  induction init generalizing s k with
  | nil => exact hs
  | cons y init ih =>
    rw [List.map_cons, runOps_cons, List.length_cons, Nat.add_comm init.length, ← Nat.add_assoc]
    exact ih (decSymUnit_failedOrHolds y hs)

/-- A symbol that fails its test where `11k mod 8` bits are held leaves the unit failed. -/
theorem decSymUnit_dfail_of_contribution {sym : Symbol} {last : Bool} {u : DecUnit} {k : Nat}
    (hu : u.FailedOrHolds k)
    (hsym : ∀ drem res1 : BitVec 3, drem.toNat = 11 * k % 8 → ∃ c, contribution T sym last drem res1 = .fail c) :
    (decSymUnit T sym last u).dfail = true := by
  rcases hu with hf | ⟨hf, hp, hrem⟩
  · exact decSymUnit_dfail_of_dfail sym last hf
  · obtain ⟨c, hc⟩ := hsym u.drem (residueAdvance u.dres) hrem
    simp [decSymUnit, hf, hp, hc]

/-- A string does not decode if one of its symbols fails its test where it stands, whatever the others are. -/
theorem decodeFrom_eq_none (s : State) {init : List Symbol} {x : Symbol} {rest : List Symbol}
    (hx : ∀ drem res1 : BitVec 3, drem.toNat = 11 * init.length % 8 →
      ∃ c, contribution T x rest.isEmpty drem res1 = .fail c) :
    decodeFrom T s (init ++ x :: rest) = none := by
  have hstart : (applyOp T .decStart s).dec.FailedOrHolds 0 := .inr ⟨rfl, nofun, rfl⟩
  have hinit := runOps_failedOrHolds (T := T) init hstart
  rw [Nat.zero_add] at hinit
  apply decodeFrom_eq_none_of_dfail
  rw [beforeDecEnd, symbolOps_append_cons, runOps_append, symbolOps_cons, runOps_cons]
  exact runOps_symbolOps_dfail rest (decSymUnit_dfail_of_contribution hinit hx)

/-- A last tail symbol with a clear bit among its padding bits fails (R150). -/
theorem tailContribution_of_bad_padding {t : TailIndex} {drem : BitVec 3} (hd : 5 ≤ drem.toNat)
    (hpad : t.toNat % 2 ^ (drem.toNat - 5) ≠ 2 ^ (drem.toNat - 5) - 1) :
    tailContribution t drem = .fail .invalidTailPadding := by
  rw [tailContribution_eq, if_neg (by omega), if_pos hpad]

/-- Settles O51: in each of the three kinds of string one symbol fails its test where it stands (R146, R147, R150). -/
theorem malformedStringsAreRejected : Obligations.MalformedStringsAreRejected := by
  refine fun T s init hT => ⟨fun i y rest => ?_, fun x hprimary htail => ?_, fun i hd hpad => ?_⟩
  · exact decodeFrom_eq_none s fun drem res1 _ => ⟨_, contribution_of_miss_notLast (romR_romT hT i) drem res1⟩
  · exact decodeFrom_eq_none s fun drem res1 _ => ⟨_, contribution_of_absent (romR_eq_miss_iff.2 hprimary)
      (tailFind_eq_absent_iff.2 htail) drem res1⟩
  · refine decodeFrom_eq_none s fun drem res1 hdrem => ⟨.invalidTailPadding, ?_⟩
    rw [← hdrem] at hd hpad
    exact (contribution_of_found (romR_romT hT i) (tailFind_romT hT i) drem res1).trans
      (tailContribution_of_bad_padding hd hpad)

end Sys2Proof.Machine
end

section
/-! The tests of one `DEC.SYM` in their order (60_exceptions.md R219): the two guards, then the tests the
symbol's contribution makes. -/

namespace Sys2Proof.Machine

/-- `DCAUSE` once a contribution was taken or failed, from the cause that stood before it: a failure writes
its cause, bits write none (41_decoder_ops.md R156, 60_exceptions.md R220). -/
def Contribution.causeAfter (old : Option Cause) : Contribution → Option Cause
  | .bits _ _ => old
  | .fail c => some c

@[simp] theorem Contribution.causeAfter_bits (old : Option Cause) (n v : Nat) :
    (Contribution.bits n v).causeAfter old = old := rfl

@[simp] theorem Contribution.causeAfter_fail (old : Option Cause) (c : Cause) :
    (Contribution.fail c).causeAfter old = some c := rfl

/-- Tests (1) and (2) of R219; the others are made by the contribution. -/
theorem decSymUnit_dcause (T : Tables) (sym : Symbol) (last : Bool) (u : DecUnit) :
    (decSymUnit T sym last u).dcause =
      if u.dfail = true then u.dcause
      else if u.dph = .closed then some .protocolViolation
      else (contribution T sym last u.drem (residueAdvance u.dres)).causeAfter u.dcause := by
  rcases decSymUnit_cases T sym last u with
    ⟨hf, h⟩ | ⟨hf, hp, h⟩ | ⟨hf, hp, c, hc, h⟩ | ⟨hf, hp, n, v, hc, h⟩
  · simp [h, hf]
  · simp [h, hf, hp]
  · simp [h, hf, hp, hc]
  · simp [h, hf, hp, hc]

/-- A primary symbol passes every test, last or not (R152, R153). -/
@[simp] theorem primaryContribution_causeAfter (old : Option Cause) (g : Group) (last : Bool) (res1 : BitVec 3) :
    (primaryContribution g last res1).causeAfter old = old := by
  cases last <;> rfl

/-- Tests (5) and (6) of R219: the bits needed, then the padding bits under their mask (R149, R150). -/
theorem tailContribution_causeAfter (old : Option Cause) (t : TailIndex) (drem : BitVec 3) :
    (tailContribution t drem).causeAfter old =
      if 3 < 8 - drem.toNat then some .tailMisaligned
      else if t.toNat &&& ones (3 - (8 - drem.toNat)) ≠ ones (3 - (8 - drem.toNat)) then some .invalidTailPadding
      else old := by
  rw [tailContribution_eq, and_ones]
  by_cases hneed : drem.toNat ≤ 4
  · rw [if_pos hneed, if_pos (by omega), Contribution.causeAfter_fail]
  · have hlt := drem.isLt
    have hpad : 3 - (8 - drem.toNat) = drem.toNat - 5 := by omega
    have hneed' : ¬ 3 < 8 - drem.toNat := by omega
    rw [if_neg hneed, if_neg hneed', hpad, ones, apply_ite (Contribution.causeAfter old),
      Contribution.causeAfter_fail, Contribution.causeAfter_bits]

/-- Settles O33: the guards come first, and the contribution's tests follow along the two lookups. -/
theorem firstFailingTestDecidesCause : Obligations.FirstFailingTestDecidesCause := by
  intro T s sym last
  refine (decSymUnit_dcause T sym last s.dec).trans ?_
  congr 2 -- both sides make the two guards first
  cases hr : romR T sym with
  | hit g => rw [contribution_of_hit hr, primaryContribution_causeAfter]
  | miss =>
    cases last with
    | false => rw [contribution_of_miss_notLast hr]; rfl
    | true =>
      cases ht : tailFind T sym with
      | absent => rw [contribution_of_absent hr ht]; rfl
      | found t => rw [contribution_of_found hr ht, tailContribution_causeAfter]; rfl

end Sys2Proof.Machine
end

section
/-! The state after reset (70_reset_and_hazards.md R241): what its registers hold and what its ports show. -/

namespace Sys2Proof.Machine

/-- R241 gives each of the eight registers its reset value; none is left unspecified. -/
theorem State.reset_clear : State.reset.Clear :=
  ⟨rfl, rfl, rfl, rfl, rfl, rfl, rfl, rfl⟩

@[simp] theorem EncUnit.reset_symValid : EncUnit.reset.symValid = false := rfl
@[simp] theorem DecUnit.reset_byteCount : DecUnit.reset.byteCount = 0#2 := rfl
@[simp] theorem DecUnit.reset_done : DecUnit.reset.done = false := rfl

/-- Settles O13: the registers by R241, and each port from its unit's reset value. -/
theorem resetStateIsClear : Obligations.ResetStateIsClear :=
  ⟨State.reset_clear, EncUnit.reset_symValid, DecUnit.reset_byteCount, DecUnit.reset_done⟩

end Sys2Proof.Machine
end

section
/-! Command words (30_encoding.md Part B): the decoder's answer for each opcode, and the canonical words. -/

namespace Sys2Proof

/-- What the ENC decoder answers, by the opcode (R94, R98). -/
theorem decodeEnc_cases (w : EncWord) :
    (w.toNat / 2 ^ 8 = 0 ∧ decodeEnc w = .op .encStart) ∨
    (w.toNat / 2 ^ 8 = 1 ∧ decodeEnc w = .op (.encByte (w.extractLsb' 0 8))) ∨
    (w.toNat / 2 ^ 8 = 2 ∧ decodeEnc w = .op .encEnd) ∨
    (w.toNat / 2 ^ 8 = 3 ∧ decodeEnc w = .reserved .enc) := by
  have hop : w.toNat / 2 ^ 8 = 0 ∨ w.toNat / 2 ^ 8 = 1 ∨ w.toNat / 2 ^ 8 = 2 ∨ w.toNat / 2 ^ 8 = 3 := by
    have := w.isLt
    omega
  rw [decodeEnc_eq]
  generalize w.toNat / 2 ^ 8 = op at hop ⊢
  rcases hop with rfl | rfl | rfl | rfl <;> simp

/-- What the DEC decoder answers, by the opcode (R95, R98). -/
theorem decodeDec_cases (w : DecWord) :
    (w.toNat / 2 ^ 22 = 0 ∧ decodeDec w = .op .decStart) ∨
    (w.toNat / 2 ^ 22 = 1 ∧ decodeDec w = .op (.decSym (w.extractLsb' 0 21) (w.getLsbD 21))) ∨
    (w.toNat / 2 ^ 22 = 2 ∧ decodeDec w = .op .decEnd) ∨
    (w.toNat / 2 ^ 22 = 3 ∧ decodeDec w = .reserved .dec) := by
  have hop : w.toNat / 2 ^ 22 = 0 ∨ w.toNat / 2 ^ 22 = 1 ∨ w.toNat / 2 ^ 22 = 2 ∨ w.toNat / 2 ^ 22 = 3 := by
    have := w.isLt
    omega
  rw [decodeDec_eq]
  generalize w.toNat / 2 ^ 22 = op at hop ⊢
  rcases hop with rfl | rfl | rfl | rfl <;> simp

theorem decodeEnc_eq_encStart {w : EncWord} (h : w.toNat / 2 ^ 8 = 0) : decodeEnc w = .op .encStart := by
  rw [decodeEnc_eq, if_pos h]

theorem decodeDec_eq_decStart {w : DecWord} (h : w.toNat / 2 ^ 22 = 0) : decodeDec w = .op .decStart := by
  rw [decodeDec_eq, if_pos h]

/-- An ENC word with opcode 1 is the operand's 8 bits below it. -/
theorem decodeEnc_eq_encByte {w : EncWord} {b : Byte} (h : w.toNat = 2 ^ 8 + b.toNat) :
    decodeEnc w = .op (.encByte b) := by
  have hb := b.isLt
  have hbyte : w.extractLsb' 0 8 = b := BitVec.eq_of_toNat_eq (by rw [encWord_byte]; omega)
  rw [decodeEnc_eq, if_neg (by omega), if_pos (by omega), hbyte]

/-- A DEC word with opcode 1 is the `last` bit and the operand's 21 bits below it. -/
theorem decodeDec_eq_decSym {w : DecWord} {sym : Symbol} {last : Bool}
    (h : w.toNat = 2 ^ 22 + last.toNat * 2 ^ 21 + sym.toNat) : decodeDec w = .op (.decSym sym last) := by
  have hs := sym.isLt
  have hl := Bool.toNat_le last
  have hsym : w.extractLsb' 0 21 = sym := BitVec.eq_of_toNat_eq (by rw [decWord_sym]; omega)
  have hbit : w.toNat / 2 ^ 21 % 2 = last.toNat := by omega
  have hlast : w.getLsbD 21 = last := by
    rw [← Bool.ofNat_toNat (w.getLsbD 21), decWord_last, hbit, Bool.ofNat_toNat]
  rw [decodeDec_eq, if_neg (by omega), if_pos (by omega), hsym, hlast]

/-- Settles O1: the canonical words with operands are read back field by field, the others are four fixed words. -/
theorem decodeInvertsEncode : Obligations.DecodeInvertsEncode := by
  intro i
  cases i with
  | encByte b =>
    have hb := b.isLt
    exact decodeEnc_eq_encByte (by rw [BitVec.toNat_ofNat]; omega)
  | decSym sym last =>
    have hs := sym.isLt
    have hl := Bool.toNat_le last
    exact decodeDec_eq_decSym (by rw [BitVec.toNat_ofNat]; omega)
  | encStart | encEnd | decStart | decEnd => decide

/-- A word whose number is made of these fields is the word of these fields. -/
theorem encWord_eq {w : EncWord} {op byte : Nat} (h : op * 2 ^ 8 + byte = w.toNat) : encWord op byte = .enc w := by
  rw [encWord, h, BitVec.ofNat_toNat, BitVec.setWidth_eq]

theorem decWord_eq {w : DecWord} {op last sym : Nat} (h : op * 2 ^ 22 + last * 2 ^ 21 + sym = w.toNat) :
    decWord op last sym = .dec w := by
  rw [decWord, h, BitVec.ofNat_toNat, BitVec.setWidth_eq]

/-- The canonical word of the operand read from an ENC word with opcode 1 is the word. -/
theorem encode_encByte_extract {w : EncWord} (hop : w.toNat / 2 ^ 8 = 1) :
    encode (.encByte (w.extractLsb' 0 8)) = .enc w := by
  rw [encode]
  exact encWord_eq (by rw [encWord_byte]; omega)

/-- The canonical word of the operands read from a DEC word with opcode 1 is the word. -/
theorem encode_decSym_extract {w : DecWord} (hop : w.toNat / 2 ^ 22 = 1) :
    encode (.decSym (w.extractLsb' 0 21) (w.getLsbD 21)) = .dec w := by
  rw [encode]
  exact decWord_eq (by rw [decWord_sym, decWord_last]; omega)

theorem encode_toNat_of_no_operand :
    (encode .encStart).toNat = 0 * 2 ^ 8 ∧ (encode .encEnd).toNat = 2 * 2 ^ 8 ∧
    (encode .decStart).toNat = 0 * 2 ^ 22 ∧ (encode .decEnd).toNat = 2 * 2 ^ 22 := by decide

/-- Settles O2: with operands no field is ignored; without, the canonical word is the opcode and zeros. -/
theorem decodedWordIsCanonicalUpToIgnoredFields : Obligations.DecodedWordIsCanonicalUpToIgnoredFields := by
  obtain ⟨hencStart, hencEnd, hdecStart, hdecEnd⟩ := encode_toNat_of_no_operand
  intro w i h
  cases w with
  | enc w =>
    rcases decodeEnc_cases w with ⟨hop, hd⟩ | ⟨hop, hd⟩ | ⟨hop, hd⟩ | ⟨hop, hd⟩ <;>
      cases hd.symm.trans h
    · exact ⟨Laws.TableRow.encStart.1, hencStart.trans (congrArg (· * 2 ^ 8) hop.symm)⟩
    · exact ⟨(Laws.TableRow.encByte _).1, encode_encByte_extract hop⟩
    · exact ⟨Laws.TableRow.encEnd.1, hencEnd.trans (congrArg (· * 2 ^ 8) hop.symm)⟩
  | dec w =>
    rcases decodeDec_cases w with ⟨hop, hd⟩ | ⟨hop, hd⟩ | ⟨hop, hd⟩ | ⟨hop, hd⟩ <;>
      cases hd.symm.trans h
    · exact ⟨Laws.TableRow.decStart.1, hdecStart.trans (congrArg (· * 2 ^ 22) hop.symm)⟩
    · exact ⟨(Laws.TableRow.decSym _ _).1, encode_decSym_extract hop⟩
    · exact ⟨Laws.TableRow.decEnd.1, hdecEnd.trans (congrArg (· * 2 ^ 22) hop.symm)⟩

/-- Under the mask of R94 a word is its opcode: a row of the ENC port matches where its pattern has that opcode. -/
theorem matchesWord_enc (name : String) (pattern : Nat) (w : EncWord) :
    OpcodeRow.matchesWord ⟨name, .enc, pattern, 0x300⟩ (.enc w) = decide (w.toNat / 2 ^ 8 * 2 ^ 8 = pattern) := by
  have hmask : w.toNat &&& 0x300 = w.toNat / 2 ^ 8 * 2 ^ 8 := and_high_mask (k := 8) (n := 2) w.isLt
  rw [OpcodeRow.matchesWord, CmdWord.toNat, hmask]
  exact Bool.true_and _

/-- Under the mask of R95 a word is its opcode: a row of the DEC port matches where its pattern has that opcode. -/
theorem matchesWord_dec (name : String) (pattern : Nat) (w : DecWord) :
    OpcodeRow.matchesWord ⟨name, .dec, pattern, 0xC00000⟩ (.dec w) =
      decide (w.toNat / 2 ^ 22 * 2 ^ 22 = pattern) := by
  have hmask : w.toNat &&& 0xC00000 = w.toNat / 2 ^ 22 * 2 ^ 22 := and_high_mask (k := 22) (n := 2) w.isLt
  rw [OpcodeRow.matchesWord, CmdWord.toNat, hmask]
  exact Bool.true_and _

/-- A row of one port matches no word of the other. -/
theorem matchesWord_of_port_ne {r : OpcodeRow} {w : CmdWord} (h : r.port ≠ w.port) : r.matchesWord w = false := by
  simp [OpcodeRow.matchesWord, h]

/-- Settles O3: under its mask a word is its opcode, which picks one row of its port and decides what it decodes to. -/
theorem decoderFollowsOpcodeTable : Obligations.DecoderFollowsOpcodeTable := by
  intro w
  cases w with
  | enc w =>
    have hother (name pattern mask) : OpcodeRow.matchesWord ⟨name, .dec, pattern, mask⟩ (.enc w) = false :=
      matchesWord_of_port_ne nofun
    rcases decodeEnc_cases w with ⟨hop, hd⟩ | ⟨hop, hd⟩ | ⟨hop, hd⟩ | ⟨hop, hd⟩ <;>
      simp only [opcodeRows, matchesWord_enc, hother, hop, decode, hd, List.forall_mem_cons, List.filter_cons] <;>
      simp [Decoded.rowName, Instr.mnemonic, CmdWord.port]
  | dec w =>
    have hother (name pattern mask) : OpcodeRow.matchesWord ⟨name, .enc, pattern, mask⟩ (.dec w) = false :=
      matchesWord_of_port_ne nofun
    rcases decodeDec_cases w with ⟨hop, hd⟩ | ⟨hop, hd⟩ | ⟨hop, hd⟩ | ⟨hop, hd⟩ <;>
      simp only [opcodeRows, matchesWord_dec, hother, hop, decode, hd, List.forall_mem_cons, List.filter_cons] <;>
      simp [Decoded.rowName, Instr.mnemonic, CmdWord.port]

/-- Settles O4: ten closed words, each decoded. -/
theorem programWordsDecode : Obligations.ProgramWordsDecode := by
  unfold Obligations.ProgramWordsDecode
  decide

/-- A word is reserved for its own port, exactly where its opcode is `11` (R98). -/
theorem decode_enc_eq_reserved_iff (w : EncWord) (p : Port) :
    decode (.enc w) = .reserved p ↔ w.toNat / 2 ^ 8 = 3 ∧ p = .enc := by
  rcases decodeEnc_cases w with ⟨hop, hd⟩ | ⟨hop, hd⟩ | ⟨hop, hd⟩ | ⟨hop, hd⟩ <;>
    simp only [decode, hd, hop] <;> simp [eq_comm]

theorem decode_dec_eq_reserved_iff (w : DecWord) (p : Port) :
    decode (.dec w) = .reserved p ↔ w.toNat / 2 ^ 22 = 3 ∧ p = .dec := by
  rcases decodeDec_cases w with ⟨hop, hd⟩ | ⟨hop, hd⟩ | ⟨hop, hd⟩ | ⟨hop, hd⟩ <;>
    simp only [decode, hd, hop] <;> simp [eq_comm]

end Sys2Proof
end

section
/-! What one step does with each kind of event, and operations issued one after another. -/

namespace Sys2Proof.Machine

variable {s : State} {rest : List HostEvent} {w : CmdWord}

theorem step_of_reset (h : s.pending = .reset :: rest) :
    step s = .next ({ s with pending := rest } : State).assertReset := by
  rw [step, State.nextEvent_cons h]

theorem step_of_op {i : Instr} (h : s.pending = .command w :: rest) (hw : decode w = .op i) :
    step s = exec i { s with pending := rest } := by
  rw [step, State.nextEvent_cons h]
  simp only [hw]

theorem step_of_reserved {p : Port} (h : s.pending = .command w :: rest) (hw : decode w = .reserved p) :
    step s = .refused (reservedRefusal p) := by
  rw [step, State.nextEvent_cons h]
  simp only [hw]

/-- Settles O5: a step refuses reserved words only (`step_refused`), and those are the words of opcode `11`. -/
theorem stepRefusesExactlyReservedWords : Obligations.StepRefusesExactlyReservedWords := by
  intro s r
  constructor
  · intro h
    obtain ⟨w, rest, p, hp, hw, rfl⟩ := step_refused h
    cases w with
    | enc w =>
      obtain ⟨hop, rfl⟩ := (decode_enc_eq_reserved_iff w p).1 hw
      exact .inl ⟨w, rest, hp, hop, rfl⟩
    | dec w =>
      obtain ⟨hop, rfl⟩ := (decode_dec_eq_reserved_iff w p).1 hw
      exact .inr ⟨w, rest, hp, hop, rfl⟩
  · rintro (⟨w, rest, hp, hop, rfl⟩ | ⟨w, rest, hp, hop, rfl⟩)
    · exact step_of_reserved hp ((decode_enc_eq_reserved_iff w .enc).2 ⟨hop, rfl⟩)
    · exact step_of_reserved hp ((decode_dec_eq_reserved_iff w .dec).2 ⟨hop, rfl⟩)

/-- Settles O8. -/
theorem stepRunsDecodedOperation : Obligations.StepRunsDecodedOperation :=
  fun _ _ _ _ => step_of_op

/-- A number that decodes is a command word of its port, and that word decodes alike. -/
theorem decodeTableWord_eq_some {nbits n : Nat} {i : Instr} (h : decodeTableWord nbits n = some i) :
    ∃ c, tableWord nbits n = some c ∧ decode c = .op i := by
  unfold decodeTableWord at h
  split at h
  · cases h
  · split at h
    · cases h
      exact ⟨_, ‹_›, ‹_›⟩
    · cases h

theorem withFetchWord_of_tableWord {nbits n : Nat} {c : CmdWord} (h : tableWord nbits n = some c) (s : State) :
    s.withFetchWord nbits n = s.issueFirst (.command c) := by
  rw [State.withFetchWord, h]

/-- Settles O9: the placed word is the head of what is issued, and taking it leaves the state it was placed in. -/
theorem placedWordRunsNext : Obligations.PlacedWordRunsNext := by
  intro s nbits n i h
  obtain ⟨c, hc, hd⟩ := decodeTableWord_eq_some h
  rw [withFetchWord_of_tableWord hc]
  exact step_of_op (s.issueFirst_pending _) hd

/-- Settles O10. -/
theorem stepWithNothingIssuedChangesNothing : Obligations.StepWithNothingIssuedChangesNothing := by
  intro s h
  rw [step, State.nextEvent_nil h]

/-- The reset input clears both units (R240). -/
theorem assertReset_clear (s : State) : s.assertReset.Clear :=
  ⟨rfl, rfl, rfl, rfl, rfl, rfl, rfl, rfl⟩

/-- The DEC log after the reset input: no byte is added to it (R243). -/
theorem assertReset_dec_log (s : State) : s.assertReset.dec.log = s.dec.log := List.append_nil _

/-- Settles O11. -/
theorem resetInputClearsBothUnits : Obligations.ResetInputClearsBothUnits := fun _ _ h =>
  ⟨_, step_of_reset h, assertReset_clear _, rfl, rfl, rfl, rfl, assertReset_dec_log _, rfl⟩

/-- Settles O12: the two start operations make the same updates of the two units. -/
theorem resetInputEqualsBothStarts : Obligations.ResetInputEqualsBothStarts := fun _ s =>
  ⟨rfl, assertReset_clear s, rfl, assertReset_dec_log s⟩

/-- Settles O14: no bit is held and no cause stands. -/
theorem resetStateMeetsInvariant : Obligations.ResetStateMeetsInvariant :=
  ⟨encStartUnit_inv EncUnit.reset, decStartUnit_inv DecUnit.reset⟩

/-- The invariant speaks of the two units only, not of what is still to be issued. -/
theorem State.Inv.with_pending {s : State} (h : s.Inv) (l : List HostEvent) : ({ s with pending := l } : State).Inv :=
  ⟨h.enc, h.dec⟩

theorem assertReset_inv (s : State) : s.assertReset.Inv :=
  ⟨encStartUnit_inv s.enc, resetDec_inv s.dec⟩

/-- Settles O15: a step does nothing, resets, or performs one operation, and each keeps the invariant. -/
theorem everyStepKeepsInvariant : Obligations.EveryStepKeepsInvariant := by
  intro s t hs h
  rcases step_next h with ⟨-, rfl⟩ | ⟨rest, -, rfl⟩ | ⟨w, rest, i, -, -, rfl⟩
  · exact hs
  · exact assertReset_inv _
  · exact applyOp_inv _ i (hs.with_pending rest)

/-- Settles O16. -/
theorem execIsApplyOpOfTheInstance : Obligations.ExecIsApplyOpOfTheInstance := exec_eq_applyOp

/-- Settles O17, by induction on the operations: each completes, so the next one is issued. -/
theorem everyOperationSequenceCompletes : Obligations.EveryOperationSequenceCompletes := by
  intro ops
  induction ops with
  | nil => exact fun _ => rfl
  | cons i ops ih =>
    intro s
    rw [execAll, exec_eq_applyOp]
    exact ih _

end Sys2Proof.Machine
end

section
/-! Bit strings cut into groups of 11 (30_encoding.md R82): the full groups and the leftover bits after them. -/

namespace Sys2Proof.Machine

/-- The full groups of a bit string, in order (R82). -/
def fullGroups (bits : List Bool) : List Group := (List.range (bits.length / 11)).map (fullGroup bits)

/-- The bits after the last full group (R82). -/
def leftover (bits : List Bool) : List Bool := bits.drop (11 * (bits.length / 11))

@[simp] theorem length_fullGroups (bits : List Bool) : (fullGroups bits).length = bits.length / 11 := by
  simp [fullGroups]

@[simp] theorem length_leftover (bits : List Bool) : (leftover bits).length = bits.length % 11 := by
  rw [leftover, List.length_drop]
  omega

theorem fullGroups_of_lt {bits : List Bool} (h : bits.length < 11) : fullGroups bits = [] := by
  rw [fullGroups, Nat.div_eq_of_lt h]
  rfl

theorem leftover_of_lt {bits : List Bool} (h : bits.length < 11) : leftover bits = bits := by
  rw [leftover, Nat.div_eq_of_lt h]
  rfl

/-- 11 to 21 bits are one full group and what is below it. -/
theorem fullGroups_one {bits : List Bool} (h₁ : 11 ≤ bits.length) (h₂ : bits.length < 22) :
    fullGroups bits = [BitVec.ofNat 11 (numOf bits / 2 ^ (bits.length - 11))] := by
  rw [fullGroups, show bits.length / 11 = 1 by omega, List.range_one, List.map_singleton, fullGroup, Nat.mul_zero,
    List.drop_zero, numOf_take]

theorem numOf_leftover_one {bits : List Bool} (h₁ : 11 ≤ bits.length) (h₂ : bits.length < 22) :
    numOf (leftover bits) = numOf bits % 2 ^ (bits.length - 11) := by
  rw [leftover, show bits.length / 11 = 1 by omega, numOf_drop]

/-- Bits that come after a string make groups with its leftover, and leave its own groups as they are. -/
theorem fullGroups_append (a b : List Bool) : fullGroups (a ++ b) = fullGroups a ++ fullGroups (leftover a ++ b) := by
  have hcount : (a ++ b).length / 11 = a.length / 11 + (leftover a ++ b).length / 11 := by
    simp only [List.length_append, length_leftover]
    omega
  rw [fullGroups, hcount, List.range_add, List.map_append, List.map_map]
  congr 1
  · refine List.map_congr_left fun j hj => fullGroup_append a b ?_
    have := List.mem_range.1 hj
    omega
  · refine List.map_congr_left fun j _ => ?_
    rw [Function.comp_apply, fullGroup, fullGroup, Nat.mul_add, ← List.drop_drop,
      List.drop_append_of_le_length (by omega), leftover]

theorem leftover_append (a b : List Bool) : leftover (a ++ b) = leftover (leftover a ++ b) := by
  have hcount : 11 * ((a ++ b).length / 11) = 11 * (a.length / 11) + 11 * ((leftover a ++ b).length / 11) := by
    simp only [List.length_append, length_leftover]
    omega
  rw [leftover, hcount, ← List.drop_drop, List.drop_append_of_le_length (by omega), leftover, leftover]

/-- A string of `w` bits is the binary form of the `w`-bit value it spells. -/
theorem bitsOf_ofNat_numOf {w : Nat} {l : List Bool} (h : l.length = w) :
    bitsOf w (BitVec.ofNat w (numOf l)).toNat = l := by
  have hlt := numOf_lt l
  rw [h] at hlt
  refine numOf_inj (by rw [length_bitsOf, h]) ?_
  rw [numOf_bitsOf, BitVec.toNat_ofNat, Nat.mod_mod, Nat.mod_eq_of_lt hlt]

theorem bitsOfGroups_singleton (g : Group) : bitsOfGroups [g] = bitsOf 11 g.toNat := List.append_nil _

theorem bitsOfBytes_cons (b : Byte) (bs : List Byte) : bitsOfBytes (b :: bs) = bitsOf 8 b.toNat ++ bitsOfBytes bs :=
  rfl

/-- The bits of the full groups, then the leftover, are the string. -/
theorem bitsOfGroups_fullGroups (bits : List Bool) : bitsOfGroups (fullGroups bits) ++ leftover bits = bits := by
  induction h : bits.length / 11 generalizing bits with
  | zero =>
    have hlt : bits.length < 11 := by omega
    rw [fullGroups_of_lt hlt, leftover_of_lt hlt]
    rfl
  | succ m ih =>
    have hhead : (bits.take 11).length = 11 := by rw [List.length_take]; omega
    have hgroup : fullGroups (bits.take 11) = [BitVec.ofNat 11 (numOf (bits.take 11))] := by
      rw [fullGroups_one (by omega) (by omega), hhead, Nat.sub_self, Nat.pow_zero, Nat.div_one]
    have hnone : leftover (bits.take 11) = [] := List.eq_nil_of_length_eq_zero (by rw [length_leftover, hhead])
    have hrest := ih (bits.drop 11) (by rw [List.length_drop]; omega)
    calc bitsOfGroups (fullGroups bits) ++ leftover bits
        = bitsOfGroups (fullGroups (bits.take 11 ++ bits.drop 11)) ++ leftover (bits.take 11 ++ bits.drop 11) := by
          rw [List.take_append_drop]
      _ = bits.take 11 ++ (bitsOfGroups (fullGroups (bits.drop 11)) ++ leftover (bits.drop 11)) := by
          rw [fullGroups_append, leftover_append, hgroup, hnone, bitsOfGroups_append, List.append_assoc,
            List.nil_append, bitsOfGroups_singleton, bitsOf_ofNat_numOf hhead]
      _ = bits := by rw [hrest, List.take_append_drop]

/-- The closed form of `encode` in these terms (R181). -/
theorem encodeClosed_eq (T : Tables) (bs : List Byte) :
    encodeClosed T bs = (fullGroups (bitsOfBytes bs)).map T.primary ++
      finalSymbols T (8 * bs.length % 11) (numOf (leftover (bitsOfBytes bs))) := by
  simp [encodeClosed, fullGroups, leftover, Function.comp_def]

end Sys2Proof.Machine
end

section
/-! The ENC unit over a bit string (10_state.md R24; 42_whole_buffer_functions.md section 1). -/

namespace Sys2Proof.Machine

variable {T : Tables}

/-- The tail arm of `ENC.END` (R118). -/
theorem encEndUnit_tail (T : Tables) {u : EncUnit} (hu : u.Inv) (h₁ : 1 ≤ u.erem.toNat) (h₂ : u.erem.toNat ≤ 3) :
    encEndUnit T u = (u.emitSym (T.tail (BitVec.ofNat 3
      (u.estage.toNat * 2 ^ (3 - u.erem.toNat) + (2 ^ (3 - u.erem.toNat) - 1))))).clear := by
  rw [encEndUnit, if_neg (by omega), if_pos h₂, (paddedTo_eq 3 hu h₂).2, romT]

/-- The final-primary arm of `ENC.END` (R119). -/
theorem encEndUnit_primary (T : Tables) {u : EncUnit} (hu : u.Inv) (h : 4 ≤ u.erem.toNat) :
    encEndUnit T u = (u.emitSym (T.primary (BitVec.ofNat 11
      (u.estage.toNat * 2 ^ (11 - u.erem.toNat) + (2 ^ (11 - u.erem.toNat) - 1))))).clear := by
  have hle : u.erem.toNat ≤ 11 := hu.1.trans (by decide)
  rw [encEndUnit, if_neg (by omega), if_neg (by omega), (paddedTo_eq 11 hu hle).2, romP]

/-- `ENC.END` emits the symbol the closed form gives for the bits held (R181). -/
theorem encEndUnit_log_eq (T : Tables) {u : EncUnit} (hu : u.Inv) :
    (encEndUnit T u).log = u.log ++ finalSymbols T u.erem.toNat u.estage.toNat := by
  unfold finalSymbols
  split_ifs with h0 h3
  · have herem : u.erem = 0#4 := BitVec.eq_of_toNat_eq h0
    simp [encEndUnit_of_empty T herem]
  · simp [encEndUnit_tail T hu (by omega) h3]
  · simp [encEndUnit_primary T hu (by omega)]

/-- The bits held and a byte as one number, cut at the completing arm: the group above, the low bits of the byte
below (R112). -/
theorem held_and_byte_split (a b : Nat) {e : Nat} (h₁ : 3 ≤ e) (h₂ : e ≤ 10) :
    (a * 256 + b) / 2 ^ (e - 3) = a * 2 ^ (11 - e) + b / 2 ^ (e - 3) ∧
    (a * 256 + b) % 2 ^ (e - 3) = b % 2 ^ (e - 3) := by
  have hpow : 256 = 2 ^ (11 - e) * 2 ^ (e - 3) := by rw [← Nat.pow_add, show 11 - e + (e - 3) = 8 by omega]
  rw [hpow, ← Nat.mul_assoc]
  refine ⟨?_, Nat.mul_add_mod_self_right _ _ _⟩
  rw [Nat.mul_comm, Nat.mul_add_div (by positivity)]

/-- What the ENC unit has come to after the bits of a string: `EREM` and `ESTAGE` are the leftover bits, and the
symbols of the full groups are out, after those of `log` (R24). -/
structure EncUnit.Holds (T : Tables) (log : List Symbol) (bits : List Bool) (u : EncUnit) : Prop where
  erem_eq : u.erem.toNat = bits.length % 11
  estage_eq : u.estage.toNat = numOf (leftover bits)
  log_eq : u.log = log ++ (fullGroups bits).map T.primary

theorem EncUnit.Holds.inv {log : List Symbol} {bits : List Bool} {u : EncUnit} (h : u.Holds T log bits) : u.Inv := by
  have hlt := numOf_lt (leftover bits)
  rw [length_leftover, ← h.erem_eq, ← h.estage_eq] at hlt
  exact ⟨by rw [h.erem_eq]; omega, hlt⟩

/-- An empty accumulator holds the empty string. -/
theorem EncUnit.holds_nil {u : EncUnit} (hstage : u.estage = 0#10) (hrem : u.erem = 0#4) : u.Holds T u.log [] :=
  ⟨by rw [hrem]; rfl, by rw [hstage]; rfl, (List.append_nil _).symm⟩

/-- A byte's 8 bits after the bits held. -/
theorem numOf_append_byte (l : List Bool) (b : Byte) : numOf (l ++ bitsOf 8 b.toNat) = numOf l * 256 + b.toNat := by
  rw [numOf_append, length_bitsOf, numOf_bitsOf, Nat.mod_eq_of_lt b.isLt,
    show (2 : Nat) ^ 8 = 256 from rfl]

/-- `ENC.BYTE` appends the byte's bits to the string held. -/
theorem encByteUnit_holds {log : List Symbol} {bits : List Bool} {u : EncUnit} (b : Byte) (h : u.Holds T log bits) :
    (encByteUnit T b u).Holds T log (bits ++ bitsOf 8 b.toNat) := by
  obtain ⟨herem, hestage, hlog⟩ := h
  have hinv : u.Inv := EncUnit.Holds.inv ⟨herem, hestage, hlog⟩
  have hnum : numOf (leftover bits ++ bitsOf 8 b.toNat) = u.estage.toNat * 256 + b.toNat := by
    rw [numOf_append_byte, hestage]
  have hlen : (leftover bits ++ bitsOf 8 b.toNat).length = u.erem.toNat + 8 := by
    rw [List.length_append, length_leftover, length_bitsOf, herem]
  have hle := hinv.1
  by_cases hcase : 3 ≤ u.erem.toNat
  · obtain ⟨htop, hlow⟩ := held_and_byte_split u.estage.toNat b.toNat hcase hle
    have hkeep : b.toNat % 2 ^ (u.erem.toNat - 3) < 2 ^ 10 :=
      (Nat.mod_lt _ (by positivity)).trans_le (Nat.pow_le_pow_right (by omega) (by omega))
    rw [(encByteUnit_completes T b hinv hcase).2]
    refine ⟨?_, ?_, ?_⟩
    · simp only [EncUnit.write_erem, BitVec.toNat_ofNat, List.length_append, length_bitsOf]
      omega
    · rw [leftover_append, numOf_leftover_one (by omega) (by omega), hnum, hlen,
        show u.erem.toNat + 8 - 11 = u.erem.toNat - 3 by omega, hlow, EncUnit.write_estage, BitVec.toNat_ofNat,
        Nat.mod_eq_of_lt hkeep]
    · rw [fullGroups_append, fullGroups_one (bits := leftover bits ++ _) (by omega) (by omega), hnum, hlen,
        show u.erem.toNat + 8 - 11 = u.erem.toNat - 3 by omega, htop]
      simp [hlog]
  · obtain ⟨hlt, hunit⟩ := encByteUnit_absorbs T b hinv (by omega)
    rw [hunit]
    refine ⟨?_, ?_, ?_⟩
    · simp only [EncUnit.write_erem, BitVec.toNat_ofNat, List.length_append, length_bitsOf]
      omega
    · rw [leftover_append, leftover_of_lt (by omega), hnum, EncUnit.write_estage, BitVec.toNat_ofNat,
        Nat.mod_eq_of_lt hlt]
    · rw [fullGroups_append, fullGroups_of_lt (bits := leftover bits ++ _) (by omega), List.append_nil]
      simp [hlog]

theorem runOps_encByte_holds (bs : List Byte) {log : List Symbol} {bits : List Bool} {s : State}
    (h : s.enc.Holds T log bits) :
    (runOps T (bs.map Instr.encByte) s).enc.Holds T log (bits ++ bitsOfBytes bs) := by
  induction bs generalizing bits s with
  | nil => exact (List.append_nil bits).symm ▸ h
  | cons b bs ih =>
    rw [List.map_cons, runOps_cons, bitsOfBytes_cons, ← List.append_assoc]
    exact ih (encByteUnit_holds b h)

/-- Settles O42: an empty accumulator holds the empty string, and each byte appends its bits. -/
theorem encoderHoldsLeftoverBits : Obligations.EncoderHoldsLeftoverBits := by
  intro T s bs hstage hrem
  obtain ⟨herem, hestage, hlog⟩ := runOps_encByte_holds bs (EncUnit.holds_nil (T := T) hstage hrem)
  rw [List.nil_append] at herem hestage hlog
  refine ⟨?_, ?_, ?_⟩
  · rw [herem, length_bitsOfBytes]
  · rw [hestage, leftover, length_bitsOfBytes]
  · rw [hlog, List.length_append, List.length_map, length_fullGroups, length_bitsOfBytes]

/-- The whole transaction of `encode`, from any state: its closed form is appended to the log. -/
theorem runOps_encodeOps_log (T : Tables) (s : State) (bs : List Byte) :
    (runOps T (encodeOps bs) s).enc.log = s.enc.log ++ encodeClosed T bs := by
  have hstart : (applyOp T .encStart s).enc.Holds T s.enc.log [] := 
    EncUnit.holds_nil (u := encStartUnit s.enc) rfl rfl
  have hheld := runOps_encByte_holds bs hstart
  have hend : (runOps T (encodeOps bs) s).enc =
      encEndUnit T (runOps T (bs.map Instr.encByte) (applyOp T .encStart s)).enc := by
    rw [encodeOps, runOps_cons, runOps_append]
    rfl
  rw [hend, encEndUnit_log_eq T hheld.inv, hheld.log_eq, hheld.erem_eq, hheld.estage_eq, List.nil_append,
    length_bitsOfBytes, encodeClosed_eq, List.append_assoc]

theorem encodeFrom_eq_encodeClosed (T : Tables) (s : State) (bs : List Byte) :
    encodeFrom T s bs = encodeClosed T bs := by
  rw [encodeFrom, runOps_encodeOps_log, List.drop_left]

/-- Settles O43. -/
theorem encodeMatchesClosedForm : Obligations.EncodeMatchesClosedForm := encodeFrom_eq_encodeClosed

/-- No symbol for no leftover bit, else one (R181). -/
theorem length_finalSymbols (T : Tables) (r L : Nat) : (finalSymbols T r L).length = if r = 0 then 0 else 1 := by
  unfold finalSymbols
  split_ifs <;> rfl

/-- Settles O44: the full groups, and one symbol more where bits are left over. -/
theorem encodeLength : Obligations.EncodeLength := by
  intro T s bs
  rw [encodeFrom_eq_encodeClosed, encodeClosed_eq, List.length_append, List.length_map, length_fullGroups,
    length_bitsOfBytes, length_finalSymbols]
  split_ifs <;> omega

/-- The final symbol is in the tail alphabet for 1 to 3 bits, else in the primary one (R81). -/
theorem finalSymbols_alphabet (T : Tables) (r L : Nat) : ∃ (gs : List Group) (is : List TailIndex),
    finalSymbols T r L = gs.map T.primary ++ is.map T.tail ∧ is.length = if 1 ≤ r ∧ r ≤ 3 then 1 else 0 := by
  unfold finalSymbols
  split_ifs
  · omega
  · exact ⟨[], [], rfl, rfl⟩
  · exact ⟨[], [_], rfl, rfl⟩
  · omega
  · omega
  · exact ⟨[_], [], rfl, rfl⟩

/-- 1 to 3 bits are left over of `8n` exactly where `n mod 11` is 7, 3 or 10. -/
theorem tail_leftover_iff (n : Nat) :
    (1 ≤ 8 * n % 11 ∧ 8 * n % 11 ≤ 3) ↔ (n % 11 = 7 ∨ n % 11 = 3 ∨ n % 11 = 10) := by
  have hres : ∀ k < 11, (1 ≤ 8 * k % 11 ∧ 8 * k % 11 ≤ 3) ↔ (k = 7 ∨ k = 3 ∨ k = 10) := by decide
  have hn := hres (n % 11) (Nat.mod_lt n (by decide))
  rwa [Nat.mul_mod_mod] at hn

/-- Settles O45: the final symbol is the only one that can be a tail symbol, by the bits left over. -/
theorem encodeOutputAlphabet : Obligations.EncodeOutputAlphabet := by
  intro T s bs
  obtain ⟨gs, is, hfinal, hlen⟩ :=
    finalSymbols_alphabet T (8 * bs.length % 11) (numOf (leftover (bitsOfBytes bs)))
  refine ⟨fullGroups (bitsOfBytes bs) ++ gs, is, ?_, ?_⟩
  · rw [encodeFrom_eq_encodeClosed, encodeClosed_eq, hfinal, List.map_append, List.append_assoc]
  · rw [hlen]
    exact if_congr (tail_leftover_iff bs.length) rfl rfl

end Sys2Proof.Machine
end

section
/-! What one `DEC.SYM` does where its guards and its symbol are known (41_decoder_ops.md R142 to R156). -/

namespace Sys2Proof.Machine

variable {T : Tables} {sym : Symbol} {last : Bool} {u : DecUnit}

theorem decSymUnit_of_dfail (h : u.dfail = true) : decSymUnit T sym last u = u.present [] none := if_pos h

theorem decSymUnit_of_closed (hf : u.dfail = false) (hp : u.dph = .closed) :
    decSymUnit T sym last u = u.raise .protocolViolation := by
  simp [decSymUnit, hf, hp]

theorem decSymUnit_of_fail {c : Cause} (hf : u.dfail = false) (hp : u.dph ≠ .closed)
    (hc : contribution T sym last u.drem (residueAdvance u.dres) = .fail c) :
    decSymUnit T sym last u = u.raise c := by
  simp [decSymUnit, hf, hp, hc]

theorem decSymUnit_of_bits {n v : Nat} (hf : u.dfail = false) (hp : u.dph ≠ .closed)
    (hc : contribution T sym last u.drem (residueAdvance u.dres) = .bits n v) :
    decSymUnit T sym last u = takeBits n v (residueAdvance u.dres) last u := by
  simp [decSymUnit, hf, hp, hc]

end Sys2Proof.Machine
end

section
/-! The bits symbols carry, as strings (42_whole_buffer_functions.md R186). -/

namespace Sys2Proof.Machine

variable {T : Tables}

/-- The first bits of a binary form are the binary form of the top of its value. -/
theorem take_bitsOf {w k : Nat} (h : k ≤ w) (v : Nat) : (bitsOf w v).take k = bitsOf k (v / 2 ^ (w - k)) := by
  rw [bitsOf, bitsOf, ← List.map_take, List.take_range, Nat.min_eq_left h]
  refine List.map_congr_left fun m hm => ?_
  have hmk := List.mem_range.1 hm
  rw [Nat.testBit_div_two_pow, show k - 1 - m + (w - k) = w - 1 - m by omega]

theorem lastBits_of_hit {k : Nat} {s : Symbol} {g : Group} (h : romR T s = .hit g) :
    lastBits T k s = some ((bitsOf 11 g.toNat).take (11 - 11 * k % 8)) := by
  rw [lastBits, h]

theorem lastBits_of_absent {k : Nat} {s : Symbol} (h : romR T s = .miss) (ht : tailFind T s = .absent) :
    lastBits T k s = none := by
  rw [lastBits, h]
  simp only [ht]

/-- The tail clause of the closed form, its padding test as in `tailContribution_eq` (R186 (c)). -/
theorem lastBits_of_found {k : Nat} {s : Symbol} {t : TailIndex} (h : romR T s = .miss)
    (ht : tailFind T s = .found t) :
    lastBits T (k + 1) s =
      if 11 * k % 8 ≤ 4 then none
      else if t.toNat % 2 ^ (11 * k % 8 - 5) ≠ 2 ^ (11 * k % 8 - 5) - 1 then none
      else some ((bitsOf 3 t.toNat).take (8 - 11 * k % 8)) := by
  rw [lastBits, h]
  simp only [ht, Nat.add_sub_cancel]
  by_cases hd : 11 * k % 8 ≤ 4
  · rw [if_pos hd, if_pos hd]
  · rw [if_neg hd, if_neg hd, show 3 - (8 - 11 * k % 8) = 11 * k % 8 - 5 by omega, and_ones, ones]

theorem lastBits_primary (hT : T.WF) (k : Nat) (g : Group) :
    lastBits T k (T.primary g) = some ((bitsOf 11 g.toNat).take (11 - 11 * k % 8)) :=
  lastBits_of_hit (romR_romP hT g)

theorem lastBits_tail (hT : T.WF) (k : Nat) (t : TailIndex) :
    lastBits T (k + 1) (T.tail t) =
      if 11 * k % 8 ≤ 4 then none
      else if t.toNat % 2 ^ (11 * k % 8 - 5) ≠ 2 ^ (11 * k % 8 - 5) - 1 then none
      else some ((bitsOf 3 t.toNat).take (8 - 11 * k % 8)) :=
  lastBits_of_found (romR_romT hT t) (tailFind_romT hT t)

/-- The string of the bits a symbol brings to the decoder, if it does not fail. -/
def Contribution.string : Contribution → Option (List Bool)
  | .bits n v => some (bitsOf n v)
  | .fail _ => none

/-- The last symbol brings what the closed form says, at the count and residue of `k` symbols before it. -/
theorem lastBits_eq_string {k : Nat} {drem res1 : BitVec 3} (s : Symbol) (hd : drem.toNat = 11 * k % 8)
    (hr : res1.toNat = 11 * (k + 1) % 8) :
    lastBits T (k + 1) s = (contribution T s true drem res1).string := by
  cases hrom : romR T s with
  | hit g =>
    rw [lastBits_of_hit hrom, contribution_of_hit hrom, take_bitsOf (by omega), ← hr,
      show 11 - (11 - res1.toNat) = res1.toNat by omega, ← Nat.shiftRight_eq_div_pow]
    rfl
  | miss =>
    cases htail : tailFind T s with
    | absent =>
      rw [lastBits_of_absent hrom htail, contribution_of_absent hrom htail]
      rfl
    | found t =>
      rw [lastBits_of_found hrom htail, contribution_of_found hrom htail, tailContribution_eq, hd]
      split_ifs with h4
      · rfl
      · rfl
      · rw [take_bitsOf (by omega), show 3 - (8 - 11 * k % 8) = 11 * k % 8 - 5 by omega]
        rfl

/-- All symbols of a string have a group exactly where each is primary. -/
theorem groupsOf_isSome_iff (ss : List Symbol) :
    (groupsOf T ss).isSome = true ↔ ∀ y ∈ ss, ∃ g, romR T y = .hit g := by
  induction ss with
  | nil => simp [groupsOf]
  | cons y ss ih =>
    rw [List.forall_mem_cons, ← ih, groupsOf]
    cases romR T y <;> cases groupsOf T ss <;> simp

theorem groupsOf_cons_eq_some {y : Symbol} {ss : List Symbol} {gs : List Group} (h : groupsOf T (y :: ss) = some gs) :
    ∃ g gs', romR T y = .hit g ∧ groupsOf T ss = some gs' ∧ gs = g :: gs' := by
  rw [groupsOf] at h
  split at h
  · exact ⟨_, _, ‹_›, ‹_›, (Option.some.inj h).symm⟩
  · cases h

theorem groupsOf_map_primary (hT : T.WF) (gs : List Group) : groupsOf T (gs.map T.primary) = some gs := by
  induction gs with
  | nil => rfl
  | cons g gs ih =>
    have hg : romR T (T.primary g) = .hit g := romR_romP hT g
    rw [List.map_cons, groupsOf, hg, ih]

/-- A string with a symbol that is not primary, at the first place where one is. -/
theorem exists_miss_of_groupsOf_eq_none {ss : List Symbol} (h : groupsOf T ss = none) :
    ∃ a y b, ss = a ++ y :: b ∧ romR T y = .miss := by
  have hnot : ¬ ∀ y ∈ ss, ∃ g, romR T y = .hit g := by
    rw [← groupsOf_isSome_iff, h]
    exact nofun
  push Not at hnot
  obtain ⟨y, hy, hmiss⟩ := hnot
  obtain ⟨a, b, hab⟩ := List.append_of_mem hy
  refine ⟨a, y, b, hab, ?_⟩
  cases hr : romR T y with
  | hit g => exact absurd hr (hmiss g)
  | miss => rfl

/-- The closed form of `decode` with the last symbol taken apart (R186). -/
theorem decodeClosed_concat (T : Tables) (init : List Symbol) (x : Symbol) :
    decodeClosed T (init ++ [x]) = (groupsOf T init).bind fun gs =>
      (lastBits T (init.length + 1) x).map fun bits => bytesOfBits (bitsOfGroups gs ++ bits) := by
  simp only [decodeClosed, List.getLast?_concat, List.dropLast_concat, List.length_append, List.length_singleton]
  cases groupsOf T init <;> cases lastBits T (init.length + 1) x <;> rfl

end Sys2Proof.Machine
end

section
/-! The DEC unit over a bit string (10_state.md R27, R29; 42_whole_buffer_functions.md section 2). -/

namespace Sys2Proof.Machine

variable {T : Tables} {log : List Byte} {bits : List Bool} {u : DecUnit}

/-- What the DEC unit has come to after the bits of primary symbols, none of them last: the bits after the last
whole byte are held, and the whole bytes are out, after those of `log` (R27, R29). -/
structure DecUnit.Holds (log : List Byte) (bits : List Bool) (u : DecUnit) : Prop where
  dfail_eq : u.dfail = false
  dph_eq : u.dph = if bits = [] then .empty else .opened
  drem_eq : u.drem.toNat = bits.length % 8
  dres_eq : u.dres = u.drem
  dstage_eq : u.dstage.toNat = numOf (bits.drop (8 * (bits.length / 8)))
  log_eq : u.log = log ++ bytesOfBits bits

theorem DecUnit.Holds.dph_ne (h : u.Holds log bits) : u.dph ≠ .closed := by
  rw [h.dph_eq]
  split_ifs <;> exact nofun

/-- After `DEC.START` the empty string is held. -/
theorem decStartUnit_holds (u : DecUnit) : (decStartUnit u).Holds u.log [] :=
  ⟨rfl, rfl, rfl, rfl, rfl, rfl⟩

/-- Bits taken are appended to the string held. -/
theorem takeBits_of_holds {n v : Nat} (res1 : BitVec 3) (last : Bool) (h : u.Holds log bits) (hv : v < 2 ^ n)
    (h₁ : 8 ≤ u.drem.toNat + n) (h₂ : u.drem.toNat + n < 24) :
    (takeBits n v res1 last u).log = log ++ bytesOfBits (bits ++ bitsOf n v) ∧
    (takeBits n v res1 last u).drem.toNat = (bits ++ bitsOf n v).length % 8 ∧
    (takeBits n v res1 last u).dstage.toNat =
      numOf ((bits ++ bitsOf n v).drop (8 * ((bits ++ bitsOf n v).length / 8))) := by
  set held := bits.drop (8 * (bits.length / 8)) with hheld
  have hlen : held.length = u.drem.toNat := by
    rw [hheld, List.length_drop, h.drem_eq]
    omega
  have hnum : numOf (bitsOf n v) = v := by rw [numOf_bitsOf, Nat.mod_eq_of_lt hv]
  obtain ⟨hlog, hdrem, hdstage⟩ := takeBits_string res1 last hlen h.dstage_eq (length_bitsOf n v) hnum h₁ h₂
  have hcount : (held ++ bitsOf n v).length = bits.length % 8 + n := by
    rw [List.length_append, hlen, length_bitsOf, h.drem_eq]
  have hdrop : (bits ++ bitsOf n v).drop (8 * ((bits ++ bitsOf n v).length / 8)) =
      (held ++ bitsOf n v).drop (8 * ((held ++ bitsOf n v).length / 8)) := by
    have hsplit : 8 * ((bits ++ bitsOf n v).length / 8) =
        8 * (bits.length / 8) + 8 * ((held ++ bitsOf n v).length / 8) := by
      rw [hcount, List.length_append, length_bitsOf]
      omega
    rw [hsplit, ← List.drop_drop, List.drop_append_of_le_length (by omega)]
  refine ⟨?_, ?_, ?_⟩
  · rw [hlog, h.log_eq, bytesOfBits_append bits, List.append_assoc]
  · rw [hdrem, hcount, List.length_append, length_bitsOf]
    omega
  · rw [hdstage, hdrop]

/-- A primary symbol that is not last appends its 11 bits. -/
theorem decSymUnit_holds {sym : Symbol} {g : Group} (hg : romR T sym = .hit g) (h : u.Holds log bits) :
    (decSymUnit T sym false u).Holds log (bits ++ bitsOf 11 g.toNat) := by
  have hc : contribution T sym false u.drem (residueAdvance u.dres) = .bits 11 g.toNat := contribution_of_hit hg _ _ _
  have hlt := u.drem.isLt
  have hne : bits ++ bitsOf 11 g.toNat ≠ [] := fun hnil => by
    have := congrArg List.length hnil
    simp at this
  obtain ⟨hlog, hdrem, hdstage⟩ :=
    takeBits_of_holds (residueAdvance u.dres) false h g.isLt (by omega) (by omega)
  rw [decSymUnit_of_bits h.dfail_eq h.dph_ne hc]
  refine ⟨h.dfail_eq, by rw [if_neg hne]; rfl, hdrem, BitVec.eq_of_toNat_eq ?_, hdstage, hlog⟩
  rw [takeBits_dres, residueAdvance_toNat, hdrem, h.dres_eq, h.drem_eq, List.length_append, length_bitsOf]
  omega

theorem runOps_decSym_holds {ss : List Symbol} {gs : List Group} {s : State} (hg : groupsOf T ss = some gs)
    (h : s.dec.Holds log bits) :
    (runOps T (ss.map (Instr.decSym · false)) s).dec.Holds log (bits ++ bitsOfGroups gs) := by
  induction ss generalizing gs bits s with
  | nil =>
    cases hg
    exact (List.append_nil bits).symm ▸ h
  | cons y ss ih =>
    obtain ⟨g, gs', hy, hss, rfl⟩ := groupsOf_cons_eq_some hg
    rw [List.map_cons, runOps_cons, ← List.singleton_append, bitsOfGroups_append, bitsOfGroups_singleton,
      ← List.append_assoc]
    exact ih hss (decSymUnit_holds hy h)

/-- Settles O46: the start operation leaves the empty string held, and each symbol appends its 11 bits. -/
theorem decoderHoldsLeftoverBits : Obligations.DecoderHoldsLeftoverBits := by
  intro T s gs hT
  have hheld := runOps_decSym_holds (groupsOf_map_primary hT gs) (s := applyOp T .decStart s)
    (decStartUnit_holds s.dec)
  rw [List.map_map, List.nil_append] at hheld
  obtain ⟨hdfail, hdph, hdrem, hdres, hdstage, hlog⟩ := hheld
  have hnil : bitsOfGroups gs = [] ↔ gs = [] := by
    rw [← List.length_eq_zero_iff, length_bitsOfGroups, ← List.length_eq_zero_iff]
    omega
  refine ⟨?_, hdres, hdfail, hdph.trans (if_congr hnil rfl rfl), ?_, hlog⟩
  · exact hdrem.trans (by rw [length_bitsOfGroups])
  · exact hdstage.trans (by rw [length_bitsOfGroups])

/-- The last symbol of a string is performed where the others have left the unit. -/
theorem beforeDecEnd_concat (T : Tables) (s : State) (init : List Symbol) (x : Symbol) :
    (beforeDecEnd T s (init ++ [x])).dec =
      decSymUnit T x true (runOps T (init.map (Instr.decSym · false)) (applyOp T .decStart s)).dec := by
  rw [beforeDecEnd, symbolOps_append, runOps_append]
  rfl

/-- The decoding of primary symbols and a last symbol: what they hold, then what the last one brings. -/
theorem decodeFrom_concat_of_groups (s : State) {init : List Symbol} {gs : List Group} (x : Symbol)
    (hg : groupsOf T init = some gs) :
    decodeFrom T s (init ++ [x]) =
      (lastBits T (init.length + 1) x).map fun add => bytesOfBits (bitsOfGroups gs ++ add) := by
  have hheld := runOps_decSym_holds hg (s := applyOp T .decStart s) (decStartUnit_holds s.dec)
  rw [List.nil_append] at hheld
  have hunit := beforeDecEnd_concat T s init x
  set u := (runOps T (init.map (Instr.decSym · false)) (applyOp T .decStart s)).dec
  have hdrem : u.drem.toNat = 11 * init.length % 8 := by
    rw [hheld.drem_eq, length_bitsOfGroups, groupsOf_length hg]
  have hres1 : (residueAdvance u.dres).toNat = 11 * (init.length + 1) % 8 := by
    rw [residueAdvance_toNat, hheld.dres_eq, hdrem]
    omega
  rw [lastBits_eq_string x hdrem hres1]
  cases hc : contribution T x true u.drem (residueAdvance u.dres) with
  | fail c =>
    rw [decSymUnit_of_fail hheld.dfail_eq hheld.dph_ne hc] at hunit
    exact decodeFrom_eq_none_of_dfail (by rw [hunit]; rfl)
  | bits n v =>
    obtain ⟨hv, -, -⟩ := contribution_bits_lt hc
    have hcount := last_count hheld.dres_eq hc
    obtain ⟨hlog, -, -⟩ :=
      takeBits_of_holds (residueAdvance u.dres) true hheld hv (by omega) (by omega)
    rw [decSymUnit_of_bits hheld.dfail_eq hheld.dph_ne hc] at hunit
    have hok : decEndOk (beforeDecEnd T s (init ++ [x])).dec = true := by
      rw [hunit, decEndOk, takeBits_dfail, takeBits_dph, hheld.dfail_eq]
      rfl
    rw [decodeFrom_eq, if_pos hok, hunit, hlog, List.drop_left]
    rfl

/-- Settles O47: by the last symbol of the string, and by whether the symbols before it are all primary. -/
theorem decodeMatchesClosedForm : Obligations.DecodeMatchesClosedForm := by
  intro T s ss
  rcases List.eq_nil_or_concat' ss with rfl | ⟨init, x, rfl⟩
  · exact (emptyInputBothWays T s).2
  · rw [decodeClosed_concat]
    cases hg : groupsOf T init with
    | none =>
      obtain ⟨a, y, b, rfl, hy⟩ := exists_miss_of_groupsOf_eq_none hg
      rw [List.append_assoc, List.cons_append]
      refine decodeFrom_eq_none s fun drem res1 _ => ⟨.prematureSentinel, ?_⟩
      rw [show (b ++ [x]).isEmpty = false by simp]
      exact contribution_of_miss_notLast hy drem res1
    | some gs => exact decodeFrom_concat_of_groups s x hg

end Sys2Proof.Machine
end

section
/-! What follows from the closed form of `decode`: which strings decode, what is not checked, and the round trip
(42_whole_buffer_functions.md R188, R189; 30_encoding.md R90). -/

namespace Sys2Proof.Machine

variable {T : Tables}

/-- 5 to 7 bits are held of `11k` exactly where `k mod 8` is 7, 2 or 5. -/
theorem tail_position_iff (k : Nat) : 5 ≤ 11 * k % 8 ↔ (k % 8 = 7 ∨ k % 8 = 2 ∨ k % 8 = 5) := by
  have hres : ∀ j < 8, 5 ≤ 11 * j % 8 ↔ (j = 7 ∨ j = 2 ∨ j = 5) := by decide
  have hk := hres (k % 8) (Nat.mod_lt k (by decide))
  rwa [Nat.mul_mod_mod] at hk

/-- Which last symbols carry bits (R186 (a), (b), (c)). -/
theorem lastBits_isSome_iff (k : Nat) (x : Symbol) :
    (lastBits T (k + 1) x).isSome = true ↔
      (∃ g, romR T x = .hit g) ∨
      (romR T x = .miss ∧ ∃ t, tailFind T x = .found t ∧ (k % 8 = 7 ∨ k % 8 = 2 ∨ k % 8 = 5) ∧
        t.toNat % 2 ^ (11 * k % 8 - 5) = 2 ^ (11 * k % 8 - 5) - 1) := by
  rw [← tail_position_iff]
  cases hr : romR T x with
  | hit g => simp [lastBits_of_hit hr]
  | miss =>
    cases ht : tailFind T x with
    | absent => simp [lastBits_of_absent hr ht]
    | found t =>
      rw [lastBits_of_found hr ht]
      split_ifs with hd hpad
      · simp [show ¬ 5 ≤ 11 * k % 8 by omega]
      · simp [hpad]
      · simpa [show 5 ≤ 11 * k % 8 by omega] using hpad

/-- Settles O49: the closed form has a value exactly where every group and the last symbol's bits exist. -/
theorem whichStringsDecode : Obligations.WhichStringsDecode := by
  intro T s init x
  rw [decodeMatchesClosedForm, decodeClosed_concat, ← groupsOf_isSome_iff, ← lastBits_isSome_iff]
  cases groupsOf T init <;> simp

/-- Settles O50: of a last primary symbol the closed form takes the bits above the dropped ones. -/
theorem droppedBitsAreNotChecked : Obligations.DroppedBitsAreNotChecked := by
  intro T s init g₁ g₂ hT heq
  have hbits (g : Group) : lastBits T (init.length + 1) (T.primary g) =
      some (bitsOf (11 - 11 * (init.length + 1) % 8) (g.toNat / 2 ^ (11 * (init.length + 1) % 8))) := by
    rw [lastBits_primary hT, take_bitsOf (by omega),
      show 11 - (11 - 11 * (init.length + 1) % 8) = 11 * (init.length + 1) % 8 by omega]
  rw [decodeMatchesClosedForm, decodeMatchesClosedForm, decodeClosed_concat, decodeClosed_concat, hbits, hbits, heq]

/-- The bytes of the bit string of bytes are these bytes. -/
theorem bytesOfBits_bitsOfBytes (bs : List Byte) : bytesOfBits (bitsOfBytes bs) = bs := by
  induction bs with
  | nil => rfl
  | cons b bs ih =>
    have hbyte : bytesOfBits (bitsOf 8 b.toNat) = [b] := by
      rw [bytesOfBits_one (by simp) (by simp), length_bitsOf, numOf_bitsOf, Nat.mod_eq_of_lt b.isLt]
      simp
    have hrest : (bitsOf 8 b.toNat).drop (8 * ((bitsOf 8 b.toNat).length / 8)) = [] := by simp
    rw [bitsOfBytes_cons, bytesOfBits_append, hbyte, hrest, List.nil_append, ih]
    rfl

/-- The first bits of a value padded with 1 bits to `w` bits are the bits that were padded. -/
theorem take_bitsOf_padded {w : Nat} {l : List Bool} (h : l.length ≤ w) :
    (bitsOf w (BitVec.ofNat w (numOf l * 2 ^ (w - l.length) + (2 ^ (w - l.length) - 1))).toNat).take l.length = l := by
  have hp : 0 < 2 ^ (w - l.length) := by positivity
  have hpow : 2 ^ w = 2 ^ (w - l.length) * 2 ^ l.length := by rw [← Nat.pow_add, Nat.sub_add_cancel h]
  refine numOf_inj (by rw [List.length_take, length_bitsOf, Nat.min_eq_left h]) ?_
  rw [numOf_take, length_bitsOf, numOf_bitsOf, BitVec.toNat_ofNat, Nat.mod_mod, hpow, Nat.mod_mul_right_div_self,
    Nat.mul_comm, Nat.mul_add_div hp, Nat.div_eq_of_lt (Nat.sub_lt hp Nat.one_pos), Nat.add_zero,
    Nat.mod_eq_of_lt (numOf_lt l)]

/-- The final symbol of an encoding carries, in its place, the bits left over: with `m` full groups before it and `r`
bits left of whole bytes, 11 m + r is a multiple of 8, so the bits it drops are the padding (R85, R86, R90). -/
theorem finalSymbols_lastBits (hT : T.WF) {m : Nat} {l : List Bool} (hne : l.length ≠ 0) (hlt : l.length < 11)
    (hbytes : (11 * m + l.length) % 8 = 0) :
    ∃ x, finalSymbols T l.length (numOf l) = [x] ∧ lastBits T (m + 1) x = some l := by
  by_cases htail : l.length ≤ 3
  · have hd : 11 * m % 8 = 8 - l.length := by omega
    have hp : 0 < 2 ^ (3 - l.length) := by positivity
    have hdvd : 2 ^ (3 - l.length) ∣ 2 ^ 3 := Nat.pow_dvd_pow 2 (by omega)
    refine ⟨_, by rw [finalSymbols, if_neg hne, if_pos htail], ?_⟩
    rw [lastBits_tail hT, hd, if_neg (by omega),
      show 8 - l.length - 5 = 3 - l.length by omega, if_neg, show 8 - (8 - l.length) = l.length by omega,
      take_bitsOf_padded htail]
    rw [not_not, BitVec.toNat_ofNat, Nat.mod_mod_of_dvd _ hdvd, Nat.mul_add_mod_self_right,
      Nat.mod_eq_of_lt (Nat.sub_lt hp Nat.one_pos)]
  · have hd : 11 * (m + 1) % 8 = 11 - l.length := by omega
    refine ⟨_, by rw [finalSymbols, if_neg hne, if_neg htail], ?_⟩
    rw [lastBits_primary hT, hd, show 11 - (11 - l.length) = l.length by omega,
      take_bitsOf_padded hlt.le]

/-- The decoding of the symbols of groups and a last symbol (R186). -/
theorem decodeClosed_primary_concat (hT : T.WF) (gs : List Group) {x : Symbol} {add : List Bool}
    (hx : lastBits T (gs.length + 1) x = some add) :
    decodeClosed T (gs.map T.primary ++ [x]) = some (bytesOfBits (bitsOfGroups gs ++ add)) := by
  rw [decodeClosed_concat, groupsOf_map_primary hT, List.length_map, hx]
  rfl

/-- Where the groups of a string end on a byte, their symbols decode to its bytes. -/
theorem decodeClosed_map_primary (hT : T.WF) (gs : List Group) (hbytes : 11 * gs.length % 8 = 0) :
    decodeClosed T (gs.map T.primary) = some (bytesOfBits (bitsOfGroups gs)) := by
  rcases List.eq_nil_or_concat' gs with rfl | ⟨gs', g, rfl⟩
  · rfl
  · have hlast : lastBits T (gs'.length + 1) (T.primary g) = some (bitsOf 11 g.toNat) := by
      rw [List.length_append, List.length_singleton] at hbytes
      rw [lastBits_primary hT, hbytes, Nat.sub_zero, List.take_of_length_le (length_bitsOf 11 _).le]
    rw [List.map_append, List.map_singleton, decodeClosed_primary_concat hT gs' hlast, bitsOfGroups_append,
      bitsOfGroups_singleton]

/-- Settles O48: by the closed forms; the decoder reads from the symbols of the encoding the bits of its full groups,
then the bits left over, which are the bits of the bytes. -/
theorem decodeOfEncodeIsIdentity : Obligations.DecodeOfEncodeIsIdentity := by
  intro T s t bs hT
  have hbits := bitsOfGroups_fullGroups (bitsOfBytes bs)
  have hlen := length_bitsOfBytes bs
  have hleft := length_leftover (bitsOfBytes bs)
  have hcount := length_fullGroups (bitsOfBytes bs)
  rw [decodeMatchesClosedForm, encodeFrom_eq_encodeClosed, encodeClosed_eq, ← hlen, ← hleft]
  by_cases hnone : (leftover (bitsOfBytes bs)).length = 0
  · rw [List.eq_nil_of_length_eq_zero hnone, List.append_nil] at hbits
    rw [hnone, finalSymbols, if_pos rfl, List.append_nil, decodeClosed_map_primary hT _ (by omega), hbits,
      bytesOfBits_bitsOfBytes]
  · obtain ⟨x, hx, hlast⟩ := finalSymbols_lastBits hT (m := (fullGroups (bitsOfBytes bs)).length) hnone
      (by omega) (by omega)
    rw [hx, decodeClosed_primary_concat hT _ hlast, hbits, bytesOfBits_bitsOfBytes]

end Sys2Proof.Machine
end

section
/-! The arithmetic of trailing 1 bits (00_scope.md R11). -/

namespace Sys2Proof.Machine

/-- The low bit first: what `p + 1` low bits are, from the low bit and the `p` bits above it. -/
theorem mod_two_pow_succ_eq_ones_iff (x p : Nat) :
    x % 2 ^ (p + 1) = 2 ^ (p + 1) - 1 ↔ x % 2 = 1 ∧ x / 2 % 2 ^ p = 2 ^ p - 1 := by
  have hlt : x / 2 % 2 ^ p < 2 ^ p := Nat.mod_lt _ (by positivity)
  rw [Nat.pow_succ', Nat.mod_mul]
  omega

theorem le_trailingOnesUpTo_iff (k x p : Nat) :
    p ≤ trailingOnesUpTo k x ↔ p ≤ k ∧ x % 2 ^ p = 2 ^ p - 1 := by
  induction k generalizing x p with
  | zero =>
    rw [trailingOnesUpTo]
    refine ⟨fun h => ?_, And.left⟩
    obtain rfl := Nat.le_zero.1 h
    exact ⟨h, Nat.mod_one x⟩
  | succ k ih =>
    cases p with
    | zero => simp [Nat.mod_one]
    | succ p =>
      rw [trailingOnesUpTo, mod_two_pow_succ_eq_ones_iff]
      by_cases hodd : x % 2 = 1
      · rw [if_pos hodd, Nat.succ_le_succ_iff, ih]
        simp [hodd]
      · simp [hodd]

/-- Settles O40: the count stops at `x` bits, and a number whose low `p` bits are 1 is at least `p`. -/
theorem trailingOnesMeansLowBitsSet : Obligations.TrailingOnesMeansLowBitsSet := by
  intro x p
  rw [trailingOnes, le_trailingOnesUpTo_iff, and_ones, ones]
  refine ⟨And.right, fun h => ⟨?_, h⟩⟩
  have hlow : 2 ^ p - 1 ≤ x := h ▸ Nat.mod_le x (2 ^ p)
  have hp : p < 2 ^ p := Nat.lt_two_pow_self
  omega

end Sys2Proof.Machine
end

section
/-! The operations of the ENC unit one by one (40_encoder_ops.md), and their frame. -/

namespace Sys2Proof.Machine

/-- An outcome in which one unit is given, by an equation for that unit. -/
theorem next_withEnc (s : State) {u v : EncUnit} (h : u = v) :
    (.next (s.withEnc u) : Host.Outcome State Fault Refusal) = .next (s.withEnc v) := congrArg _ (congrArg _ h)

theorem next_withDec (s : State) {u v : DecUnit} (h : u = v) :
    (.next (s.withDec u) : Host.Outcome State Fault Refusal) = .next (s.withDec v) := congrArg _ (congrArg _ h)

/-- Settles O18. -/
theorem encStartEmptiesAccumulator : Obligations.EncStartEmptiesAccumulator :=
  ⟨fun _ => decodeEnc_eq_encStart, fun _ => rfl⟩

/-- Settles O19, by the completing arm. -/
theorem encByteCompletesGroup : Obligations.EncByteCompletesGroup := by
  intro s b hinv hrem
  obtain ⟨hlt, hunit⟩ := encByteUnit_completes Config.tables b hinv hrem
  exact ⟨hlt, next_withEnc s hunit⟩

/-- Settles O20, by the absorbing arm. -/
theorem encByteAbsorbsByte : Obligations.EncByteAbsorbsByte := by
  intro s b hinv hrem
  obtain ⟨hlt, hunit⟩ := encByteUnit_absorbs Config.tables b hinv hrem
  exact ⟨hlt, next_withEnc s hunit⟩

/-- A unit that meets the invariant holds the string of its `EREM` bits. -/
theorem EncUnit.holds_of_inv (T : Tables) {u : EncUnit} (h : u.Inv) :
    u.Holds T u.log (bitsOf u.erem.toNat u.estage.toNat) := by
  have hlt : (bitsOf u.erem.toNat u.estage.toNat).length < 11 := by
    rw [length_bitsOf]
    exact Nat.lt_succ_of_le h.1
  refine ⟨?_, ?_, ?_⟩
  · rw [Nat.mod_eq_of_lt hlt, length_bitsOf]
  · rw [leftover_of_lt hlt, numOf_bitsOf, Nat.mod_eq_of_lt h.2]
  · rw [fullGroups_of_lt hlt, List.map_nil, List.append_nil]

/-- The number of a string of groups. -/
theorem numOf_bitsOfGroups (gs : List Group) :
    numOf (bitsOfGroups gs) = gs.foldl (fun a g => a * 2048 + g.toNat) 0 := by
  induction gs using List.reverseRecOn with
  | nil => rfl
  | append_singleton gs g ih =>
    rw [bitsOfGroups_append, bitsOfGroups_singleton, numOf_append, length_bitsOf, numOf_bitsOf,
      Nat.mod_eq_of_lt g.isLt, ih, List.foldl_append]
    rfl

/-- An operation that answers a next state answers that of `applyOp`. -/
theorem eq_applyOp_of_exec {i : Instr} {s t : State} (h : exec i s = .next t) : t = applyOp Config.tables i s := by
  rw [exec_eq_applyOp] at h
  exact (Host.Outcome.next.inj h).symm

/-- The unit holds a string, the byte is appended to it, and its groups and leftover are the string. -/
theorem encByteUnit_conserves (T : Tables) (b : Byte) {u : EncUnit} (h : u.Inv) :
    ∃ gs : List Group, gs.length ≤ 1 ∧ (encByteUnit T b u).log = u.log ++ gs.map T.primary ∧
      (encByteUnit T b u).erem.toNat + 11 * gs.length = u.erem.toNat + 8 ∧
      gs.foldl (fun a g => a * 2048 + g.toNat) 0 * 2 ^ (encByteUnit T b u).erem.toNat +
        (encByteUnit T b u).estage.toNat = u.estage.toNat * 256 + b.toNat := by
  obtain ⟨herem, hestage, hlog⟩ := encByteUnit_holds b (EncUnit.holds_of_inv T h)
  set bits := bitsOf u.erem.toNat u.estage.toNat ++ bitsOf 8 b.toNat with hbits
  have hlen : bits.length = u.erem.toNat + 8 := by
    rw [hbits, List.length_append, length_bitsOf, length_bitsOf]
  have hnum : numOf bits = u.estage.toNat * 256 + b.toNat := by
    rw [hbits, numOf_append_byte, numOf_bitsOf, Nat.mod_eq_of_lt h.2]
  have hle := h.1
  refine ⟨fullGroups bits, ?_, hlog, ?_, ?_⟩
  · rw [length_fullGroups]
    omega
  · rw [herem, length_fullGroups]
    omega
  · rw [herem, hestage, ← numOf_bitsOfGroups, ← length_leftover, ← numOf_append, bitsOfGroups_fullGroups, hnum]

/-- Settles O21. -/
theorem encByteConservesBits : Obligations.EncByteConservesBits := by
  intro s t b hinv h
  obtain rfl := eq_applyOp_of_exec h
  exact encByteUnit_conserves Config.tables b hinv

/-- Settles O22, by the empty arm. -/
theorem encEndOfEmptyAccumulator : Obligations.EncEndOfEmptyAccumulator := fun s h =>
  next_withEnc s (encEndUnit_of_empty Config.tables h)

/-- Settles O23, by the tail arm. -/
theorem encEndSendsTailSymbol : Obligations.EncEndSendsTailSymbol := fun s hinv h₁ h₂ =>
  ⟨(paddedTo_eq 3 hinv h₂).1, next_withEnc s (encEndUnit_tail Config.tables hinv h₁ h₂)⟩

/-- Settles O24, by the final-primary arm. -/
theorem encEndSendsFinalPrimarySymbol : Obligations.EncEndSendsFinalPrimarySymbol := fun s hinv h =>
  ⟨(paddedTo_eq 11 hinv (hinv.1.trans (by decide))).1,
    next_withEnc s (encEndUnit_primary Config.tables hinv h)⟩

/-- Settles O25, operation by operation. -/
theorem encOperationsFrame : Obligations.EncOperationsFrame := by
  intro i s t hport h
  obtain rfl := eq_applyOp_of_exec h
  obtain ⟨hdec, hpending, -⟩ := applyOp_of_enc Config.tables hport s
  refine ⟨hdec, hpending, ?_⟩
  cases i with
  | encStart => exact ⟨encStartUnit_log s.enc, fun _ => rfl⟩
  | encByte b => exact ⟨encByteUnit_log Config.tables b s.enc, nofun⟩
  | encEnd => exact ⟨encEndUnit_log Config.tables s.enc, nofun⟩
  | decStart | decSym | decEnd => cases hport

end Sys2Proof.Machine
end

section
/-! The operations of the DEC unit one by one (41_decoder_ops.md). -/

namespace Sys2Proof.Machine

/-- A port that shows no byte adds none to the log. -/
theorem DecUnit.present_nil (u : DecUnit) (st : Option Bool) :
    u.present [] st = { u with bytes := [], status := st } := by
  rw [DecUnit.present, List.append_nil]

theorem decStartUnit_eq (u : DecUnit) : decStartUnit u = { u.clear with bytes := [], status := none } :=
  u.clear.present_nil none

/-- Settles O26. -/
theorem decStartClearsUnit : Obligations.DecStartClearsUnit :=
  ⟨fun _ => decodeDec_eq_decStart, fun s => next_withDec s (decStartUnit_eq s.dec)⟩

theorem residueAdvance_eq (r : BitVec 3) : residueAdvance r = BitVec.ofNat 3 ((r.toNat + 3) % 8) :=
  BitVec.eq_of_toNat_eq (by rw [residueAdvance_toNat, BitVec.toNat_ofNat, Nat.mod_mod])

/-- Held bits and the bits after them fit their count. -/
theorem concat_lt {a b m n : Nat} (ha : a < 2 ^ m) (hb : b < 2 ^ n) : a * 2 ^ n + b < 2 ^ (m + n) := by
  have h : (a + 1) * 2 ^ n ≤ 2 ^ m * 2 ^ n := Nat.mul_le_mul_right _ ha
  rw [Nat.pow_add]
  rw [Nat.add_mul] at h
  omega

/-- A byte cut from a number is cut from its low 8 bits. -/
theorem ofNat_mod_256 (x : Nat) : BitVec.ofNat 8 (x % 256) = BitVec.ofNat 8 x :=
  BitVec.eq_of_toNat_eq (by simp)

/-- Settles O27: 11 bits after 0 to 4 held are one byte and a rest, after 5 to 7 they are two. -/
theorem decSymTakesPrimarySymbol : Obligations.DecSymTakesPrimarySymbol := by
  intro s sym g hinv hf hp hg a c out
  have hc : contribution Config.tables sym false s.dec.drem (residueAdvance s.dec.dres) = .bits 11 g.toNat :=
    contribution_of_hit hg _ _ _
  have hd := s.dec.drem.isLt
  have hexec : exec (.decSym sym false) s =
      .next (s.withDec (takeBits 11 g.toNat (residueAdvance s.dec.dres) false s.dec)) :=
    next_withDec s (decSymUnit_of_bits hf hp hc)
  constructor
  · have hpow : 256 * 2 ^ (c - 8) = 2 ^ c := by
      rw [show 256 = 2 ^ 8 from rfl, ← Nat.pow_add, show 8 + (c - 8) = c by omega]
    rw [Nat.div_lt_iff_lt_mul (by positivity), hpow]
    exact concat_lt hinv.stage_lt g.isLt
  · rw [hexec, ← residueAdvance_eq]
    by_cases hcase : c < 16
    · have hout : out = _ := if_pos hcase
      rw [takeBits_one _ _ _ g.isLt (by omega) hcase, hout, show c % 8 = c - 8 by omega]
      rfl
    · have hout : out = _ := if_neg hcase
      rw [takeBits_two _ _ _ g.isLt (by omega) (by omega), hout, show c % 8 = c - 16 by omega, ofNat_mod_256]
      rfl

/-- Bits that complete one byte with none over. -/
theorem takeBits_eight {n v : Nat} (res1 : BitVec 3) (last : Bool) {u : DecUnit} (hv : v < 2 ^ n)
    (h : u.drem.toNat + n = 8) :
    takeBits n v res1 last u = (u.present [BitVec.ofNat 8 (u.dstage.toNat * 2 ^ n + v)] none).accept 0 0 res1
      (phaseAfter last) := by
  rw [takeBits_one res1 last u hv (by omega) (by omega), h, Nat.sub_self, Nat.pow_zero, Nat.div_one, Nat.mod_one]

/-- Bits that complete two bytes with none over. -/
theorem takeBits_sixteen {n v : Nat} (res1 : BitVec 3) (last : Bool) {u : DecUnit} (hv : v < 2 ^ n)
    (h : u.drem.toNat + n = 16) :
    takeBits n v res1 last u = (u.present [BitVec.ofNat 8 ((u.dstage.toNat * 2 ^ n + v) / 256),
      BitVec.ofNat 8 (u.dstage.toNat * 2 ^ n + v)] none).accept 0 0 res1 (phaseAfter last) := by
  rw [takeBits_two res1 last u hv (by omega) (by omega), h, Nat.sub_self, Nat.pow_zero, Nat.div_one, Nat.mod_one,
    show (2 : Nat) ^ (16 - 8) = 256 from rfl]

/-- Settles O28: the bits a last primary symbol brings come to 8 or to 16 with those held. -/
theorem decSymTakesLastPrimarySymbol : Obligations.DecSymTakesLastPrimarySymbol := by
  intro s sym g hinv hf hp hg d res1 x out
  have hres : (residueAdvance s.dec.dres).toNat = res1 := by rw [residueAdvance_toNat, hinv.res_eq hp]
  have hc : contribution Config.tables sym true s.dec.drem (residueAdvance s.dec.dres) =
      .bits (11 - res1) (g.toNat / 2 ^ res1) := by
    rw [contribution_of_hit hg, primaryContribution, if_pos rfl, hres, Nat.shiftRight_eq_div_pow]
  obtain ⟨hv, -, -⟩ := contribution_bits_lt hc
  have hd : d < 8 := s.dec.drem.isLt
  have hx : x < 2 ^ (d + (11 - res1)) := concat_lt hinv.stage_lt hv
  have hexec : exec (.decSym sym true) s =
      .next (s.withDec (takeBits (11 - res1) (g.toNat / 2 ^ res1) (residueAdvance s.dec.dres) true s.dec)) :=
    next_withDec s (decSymUnit_of_bits hf hp hc)
  have hdres : residueAdvance s.dec.dres = BitVec.ofNat 3 res1 :=
    (congrArg residueAdvance (hinv.res_eq hp)).trans (residueAdvance_eq s.dec.drem)
  rw [hexec, hdres]
  by_cases hcase : d ≤ 4
  · have hcount : d + (11 - res1) = 8 := by omega
    rw [hcount] at hx
    refine ⟨fun _ => hx, fun h => absurd h (by omega), ?_⟩
    have hout : out = _ := if_pos hcase
    rw [takeBits_eight _ _ hv hcount, hout]
    rfl
  · have hcount : d + (11 - res1) = 16 := by omega
    rw [hcount] at hx
    refine ⟨fun h => absurd h hcase, fun _ => hx, ?_⟩
    have hout : out = _ := if_neg hcase
    rw [takeBits_sixteen _ _ hv hcount, hout, ofNat_mod_256]
    rfl

/-- Settles O29, by the three clauses of `tailContribution_eq`. -/
theorem decSymResolvesTailSymbol : Obligations.DecSymResolvesTailSymbol := by
  intro T s sym t hinv hf hp hr ht d x
  have hd : d < 8 := s.dec.drem.isLt
  have hc := (contribution_of_found hr ht s.dec.drem (residueAdvance s.dec.dres)).trans (tailContribution_eq t _)
  refine ⟨fun h4 => ?_, fun h5 hpad => ?_, fun h5 hpad => ?_⟩
  · rw [if_pos h4] at hc
    exact congrArg s.withDec (decSymUnit_of_fail hf hp hc)
  · rw [if_neg (by omega), if_pos hpad] at hc
    exact congrArg s.withDec (decSymUnit_of_fail hf hp hc)
  · rw [if_neg (by omega), if_neg (not_not.2 hpad)] at hc
    obtain ⟨hv, -, -⟩ := contribution_bits_lt hc
    have hcount : d + (8 - d) = 8 := by omega
    have hx : x < 2 ^ (d + (8 - d)) := concat_lt hinv.stage_lt hv
    rw [hcount] at hx
    refine ⟨hx, ?_⟩
    have hunit := (decSymUnit_of_bits hf hp hc).trans (takeBits_eight _ _ hv hcount)
    rw [residueAdvance_eq, hinv.res_eq hp] at hunit
    exact congrArg s.withDec hunit

/-- Settles O30: the symbol is a miss of ROM R, and where it is last, absent from ROM T. -/
theorem decSymFailsOnSentinel : Obligations.DecSymFailsOnSentinel := by
  intro T s sym hf hp hprimary
  have hmiss := romR_eq_miss_iff.2 hprimary
  refine ⟨congrArg s.withDec (decSymUnit_of_fail hf hp (contribution_of_miss_notLast hmiss _ _)), fun htail => ?_⟩
  have habsent := tailFind_eq_absent_iff.2 htail
  exact congrArg s.withDec (decSymUnit_of_fail hf hp (contribution_of_absent hmiss habsent _ _))

/-- `DEC.SYM` in a failed transaction, with any tables (R142). -/
theorem applyOp_decSym_of_dfail (T : Tables) {s : State} (sym : Symbol) (last : Bool) (h : s.dec.dfail = true) :
    applyOp T (.decSym sym last) s = { s with dec := { s.dec with bytes := [], status := none } } :=
  congrArg s.withDec ((decSymUnit_of_dfail h).trans (s.dec.present_nil none))

/-- Settles O31. -/
theorem decSymIgnoredAfterFailure : Obligations.DecSymIgnoredAfterFailure := fun _ sym last h =>
  congrArg Host.Outcome.next (applyOp_decSym_of_dfail Config.tables sym last h)

/-- Settles O32. -/
theorem decSymAfterLastViolatesProtocol : Obligations.DecSymAfterLastViolatesProtocol := fun s _ _ hf hp =>
  next_withDec s (decSymUnit_of_closed hf hp)

/-- Settles O34: of what `DEC.SYM` can do, only the two arms that raise a cause set `DFAIL`. -/
theorem failingSymWritesOnlyFlags : Obligations.FailingSymWritesOnlyFlags := by
  intro T s sym last hf hfail
  replace hfail : (decSymUnit T sym last s.dec).dfail = true := hfail
  rcases decSymUnit_cases T sym last s.dec with ⟨h, -⟩ | ⟨-, -, h⟩ | ⟨-, -, c, -, h⟩ | ⟨-, -, n, v, -, h⟩
  · simp [hf] at h
  · exact ⟨.protocolViolation, congrArg s.withDec h⟩
  · exact ⟨c, congrArg s.withDec h⟩
  · simp [h, hf] at hfail

/-- Symbols after a failure change what the port shows and nothing else. -/
theorem runOps_decSym_of_dfail (T : Tables) (l : List (Symbol × Bool)) {s : State} (h : s.dec.dfail = true) :
    runOps T (l.map fun p => .decSym p.1 p.2) s =
      { s with dec := { s.dec with
          bytes := (runOps T (l.map fun p => .decSym p.1 p.2) s).dec.bytes
          status := (runOps T (l.map fun p => .decSym p.1 p.2) s).dec.status } } := by
  induction l generalizing s with
  | nil => rfl
  | cons p l ih =>
    rw [List.map_cons, runOps_cons, applyOp_decSym_of_dfail T p.1 p.2 h]
    exact ih (s := { s with dec := { s.dec with bytes := [], status := none } }) h

/-- When `DEC.END` reports `OK` (R171). -/
theorem decEndOk_eq (u : DecUnit) :
    decEndOk u = decide (u.dfail = false ∧ (u.dph = .empty ∨ u.dph = .closed)) := by
  rw [decEndOk]
  cases u.dfail <;> cases u.dph <;> rfl

theorem decEndOk_of_dfail {u : DecUnit} (h : u.dfail = true) : decEndOk u = false := by simp [decEndOk, h]

/-- Settles O35: `DFAIL` is among the registers that stand, and `DEC.END` reports it. -/
theorem failureStandsUntilEnd : Obligations.FailureStandsUntilEnd := by
  intro T s l h t
  have hstands : t = _ := runOps_decSym_of_dfail T l h
  have hfail : t.dec.dfail = true := by
    rw [hstands]
    exact h
  exact ⟨hstands, congrArg some (decEndOk_of_dfail hfail)⟩

/-- The bytes that leave as bits are taken are the whole ones, at any count the unit can come to. -/
theorem takeBits_bytes_length {n v : Nat} (res1 : BitVec 3) (last : Bool) {u : DecUnit} (hv : v < 2 ^ n)
    (h : u.drem.toNat + n < 24) : (takeBits n v res1 last u).bytes.length = (u.drem.toNat + n) / 8 := by
  by_cases h8 : 8 ≤ u.drem.toNat + n
  · exact (takeBits_stage res1 last u hv h8 h).2.2
  · rw [takeBits, flush_of_lt (by omega), Nat.div_eq_of_lt (by omega)]
    rfl

/-- Where no bit is held, `DSTAGE` is 0 (R28). -/
theorem DecUnit.Inv.dstage_eq_zero {u : DecUnit} (h : u.Inv) (hr : u.drem = 0#3) : u.dstage = 0#7 := by
  have hlt := h.stage_lt
  rw [hr] at hlt
  exact BitVec.eq_of_toNat_eq (Nat.lt_one_iff.1 hlt)

/-- A symbol that is performed and does not fail: the count comes to 8 to 18, and after a last symbol the phase is
CLOSED, where the invariant says that no bit is held (R157). -/
theorem decSymUnit_success (T : Tables) (sym : Symbol) (last : Bool) {u : DecUnit} (hinv : u.Inv)
    (hf : u.dfail = false) (hok : (decSymUnit T sym last u).dfail = false) :
    1 ≤ (decSymUnit T sym last u).bytes.length ∧ (decSymUnit T sym last u).bytes.length ≤ 2 ∧
    (last = true → (decSymUnit T sym last u).drem = 0#3 ∧ (decSymUnit T sym last u).dstage = 0#7) := by
  have hafter := decSymUnit_inv T sym last hinv
  rcases decSymUnit_cases T sym last u with
    ⟨hfail, -⟩ | ⟨-, -, hunit⟩ | ⟨-, -, c, -, hunit⟩ | ⟨-, hp, n, v, hc, hunit⟩
  · simp [hf] at hfail
  · simp [hunit] at hok
  · simp [hunit] at hok
  · obtain ⟨hv, -, hn⟩ := contribution_bits_lt hc
    have hd := u.drem.isLt
    have hcount : 8 ≤ u.drem.toNat + n := by
      cases last with
      | false => rw [not_last_count hc]; omega
      | true => rcases last_count (hinv.res_eq hp) hc with h | h <;> omega
    rw [hunit] at hafter ⊢
    rw [takeBits_bytes_length _ _ hv (by omega)]
    refine ⟨by omega, by omega, ?_⟩
    rintro rfl
    have hrem := hafter.closed_rem rfl
    exact ⟨hrem, hafter.dstage_eq_zero hrem⟩

/-- Settles O36. -/
theorem successfulSymEmitsBytes : Obligations.SuccessfulSymEmitsBytes := by
  intro s t sym last hinv hf h hok
  obtain rfl := eq_applyOp_of_exec h
  exact decSymUnit_success Config.tables sym last hinv hf hok

theorem decEndUnit_eq (u : DecUnit) :
    decEndUnit u = { u.clear with bytes := [], status := some (decEndOk u) } := by
  rw [decEndUnit, DecUnit.present_nil]
  rfl

/-- Settles O37. -/
theorem decEndReportsAndClears : Obligations.DecEndReportsAndClears := fun s => by
  rw [← decEndOk_eq]
  exact next_withDec s (decEndUnit_eq s.dec)

/-- Settles O38: `OK` is reported in phase EMPTY or CLOSED only, and in both no bit is held. -/
theorem noBitHeldAtSuccessfulEnd : Obligations.NoBitHeldAtSuccessfulEnd := by
  intro s t hinv h hstatus
  obtain rfl := eq_applyOp_of_exec h
  have hok : decEndOk s.dec = true := Option.some.inj hstatus
  rw [decEndOk_eq, decide_eq_true_iff] at hok
  obtain ⟨-, hph⟩ := hok
  have hrem : s.dec.drem = 0#3 := hph.elim hinv.empty_rem hinv.closed_rem
  exact ⟨hrem, hinv.dstage_eq_zero hrem⟩

/-- `DEC.SYM` shows two bytes at most and no status, from any state (30_encoding.md R103, R105). -/
theorem decSymUnit_port (T : Tables) (sym : Symbol) (last : Bool) (u : DecUnit) :
    (decSymUnit T sym last u).bytes.length ≤ 2 ∧ (decSymUnit T sym last u).status = none := by
  rcases decSymUnit_cases T sym last u with ⟨-, h⟩ | ⟨-, -, h⟩ | ⟨-, -, c, -, h⟩ | ⟨-, -, n, v, hc, h⟩ <;> rw [h]
  · exact ⟨Nat.zero_le _, rfl⟩
  · exact ⟨Nat.zero_le _, rfl⟩
  · exact ⟨Nat.zero_le _, rfl⟩
  · obtain ⟨hv, -, hn⟩ := contribution_bits_lt hc
    have hd := u.drem.isLt
    exact ⟨by rw [takeBits_bytes_length _ _ hv (by omega)]; omega, rfl⟩

/-- Settles O39, operation by operation. -/
theorem decOperationsFrame : Obligations.DecOperationsFrame := by
  intro i s t hport h
  obtain rfl := eq_applyOp_of_exec h
  obtain ⟨henc, hpending, -⟩ := applyOp_of_dec Config.tables hport s
  refine ⟨henc, hpending, ?_⟩
  cases i with
  | decStart => exact ⟨decStartUnit_log s.dec, Nat.zero_le _, iff_of_false (absurd rfl) nofun, fun _ => rfl⟩
  | decSym sym last =>
    obtain ⟨hbytes, hstatus⟩ := decSymUnit_port Config.tables sym last s.dec
    exact ⟨decSymUnit_log Config.tables sym last s.dec, hbytes, iff_of_false (absurd hstatus) nofun, nofun⟩
  | decEnd => exact ⟨decEndUnit_log s.dec, Nat.zero_le _, iff_of_true nofun rfl, fun _ => rfl⟩
  | encStart | encByte | encEnd => cases hport

end Sys2Proof.Machine
end

section
/-! Operations on both units, interleaved (60_exceptions.md R228), and the optional start operations
(70_reset_and_hazards.md R244). -/

namespace Sys2Proof.Machine

/-- Of an operation the unit of its port sees what it sees alone, the other unit nothing. -/
theorem runOps_enc_opsOf (T : Tables) (ops : List Instr) {s s' : State} (h : s.enc = s'.enc) :
    (runOps T ops s).enc = (runOps T (opsOf .enc ops) s').enc := by
  induction ops generalizing s s' with
  | nil => exact h
  | cons i ops ih =>
    cases hport : i.port with
    | enc =>
      rw [opsOf, List.filter_cons_of_pos (by simp [hport])]
      exact ih ((applyOp_of_enc T hport s').2.2 s h)
    | dec =>
      rw [opsOf, List.filter_cons_of_neg (by simp [hport])]
      exact ih ((applyOp_of_dec T hport s).1.trans h)

theorem runOps_dec_opsOf (T : Tables) (ops : List Instr) {s s' : State} (h : s.dec = s'.dec) :
    (runOps T ops s).dec = (runOps T (opsOf .dec ops) s').dec := by
  induction ops generalizing s s' with
  | nil => exact h
  | cons i ops ih =>
    cases hport : i.port with
    | dec =>
      rw [opsOf, List.filter_cons_of_pos (by simp [hport])]
      exact ih ((applyOp_of_dec T hport s').2.2 s h)
    | enc =>
      rw [opsOf, List.filter_cons_of_neg (by simp [hport])]
      exact ih ((applyOp_of_enc T hport s).1.trans h)

/-- Settles O54. -/
theorem unitsAreIndependent : Obligations.UnitsAreIndependent := fun T ops _ _ =>
  ⟨runOps_enc_opsOf T ops, runOps_dec_opsOf T ops⟩

/-- On clear registers a start operation changes the port alone. -/
theorem encStartUnit_of_clear {s : State} (h : s.Clear) : encStartUnit s.enc = s.enc.emitNothing := by
  obtain ⟨hestage, herem, -⟩ := h
  rw [encStartUnit, EncUnit.clear, ← hestage, ← herem]

theorem decStartUnit_of_clear {s : State} (h : s.Clear) :
    decStartUnit s.dec = { s.dec with bytes := [], status := none } := by
  obtain ⟨-, -, hdstage, hdrem, hdres, hdfail, hdph, hdcause⟩ := h
  rw [decStartUnit_eq]
  simp only [DecUnit.clear, hdstage, hdrem, hdres, hdfail, hdph, hdcause]

/-- The operations after a start do not read the port and show their own output on it. -/
theorem encByteUnit_emitNothing (T : Tables) (b : Byte) (u : EncUnit) :
    encByteUnit T b u.emitNothing = encByteUnit T b u := rfl

theorem encEndUnit_emitNothing (T : Tables) (u : EncUnit) : encEndUnit T u.emitNothing = encEndUnit T u := rfl

theorem decSymUnit_with_port (T : Tables) (sym : Symbol) (last : Bool) (u : DecUnit) (bs : List Byte)
    (st : Option Bool) : decSymUnit T sym last { u with bytes := bs, status := st } = decSymUnit T sym last u := rfl

theorem decEndUnit_with_port (u : DecUnit) (bs : List Byte) (st : Option Bool) :
    decEndUnit { u with bytes := bs, status := st } = decEndUnit u := rfl

variable {T : Tables} {s : State}

theorem applyOp_encByte_after_start (b : Byte) (h : s.Clear) :
    applyOp T (.encByte b) (applyOp T .encStart s) = applyOp T (.encByte b) s := by
  refine congrArg s.withEnc ((congrArg (encByteUnit T b) (encStartUnit_of_clear h)).trans ?_)
  exact encByteUnit_emitNothing T b s.enc

theorem applyOp_encEnd_after_start (h : s.Clear) :
    applyOp T .encEnd (applyOp T .encStart s) = applyOp T .encEnd s := by
  refine congrArg s.withEnc ((congrArg (encEndUnit T) (encStartUnit_of_clear h)).trans ?_)
  exact encEndUnit_emitNothing T s.enc

theorem applyOp_decSym_after_start (sym : Symbol) (last : Bool) (h : s.Clear) :
    applyOp T (.decSym sym last) (applyOp T .decStart s) = applyOp T (.decSym sym last) s := by
  refine congrArg s.withDec ((congrArg (decSymUnit T sym last) (decStartUnit_of_clear h)).trans ?_)
  exact decSymUnit_with_port T sym last s.dec [] none

theorem applyOp_decEnd_after_start (h : s.Clear) :
    applyOp T .decEnd (applyOp T .decStart s) = applyOp T .decEnd s := by
  refine congrArg s.withDec ((congrArg decEndUnit (decStartUnit_of_clear h)).trans ?_)
  exact decEndUnit_with_port s.dec [] none

/-- The whole transaction without its start, by its first operation. -/
theorem runOps_encodeOps_of_clear (bs : List Byte) (h : s.Clear) :
    runOps T (encodeOps bs) s = runOps T (bs.map Instr.encByte ++ [.encEnd]) s := by
  cases bs with
  | nil => exact applyOp_encEnd_after_start h
  | cons b bs => exact congrArg (runOps T _) (applyOp_encByte_after_start b h)

theorem runOps_decodeOps_of_clear (ss : List Symbol) (h : s.Clear) :
    runOps T (decodeOps ss) s = runOps T (symbolOps ss ++ [.decEnd]) s := by
  cases ss with
  | nil => exact applyOp_decEnd_after_start h
  | cons x ss =>
    rw [decodeOps, symbolOps_cons]
    exact congrArg (runOps T _) (applyOp_decSym_after_start x _ h)

/-- Settles O53. -/
theorem startIsOptionalWhenClear : Obligations.StartIsOptionalWhenClear := fun _ _ bs ss h =>
  ⟨congrArg State.enc (runOps_encodeOps_of_clear bs h).symm, congrArg State.dec (runOps_decodeOps_of_clear ss h).symm⟩

end Sys2Proof.Machine
end

section
/-! A host that marks the last symbol (70_reset_and_hazards.md R249) meets no protocol violation. -/

namespace Sys2Proof.Machine

variable {T : Tables}

/-- The unit as the check of R249 follows it: in the phase the operations so far lead to, as long as it has not
failed, and without a protocol violation. -/
def DecUnit.Follows (u : DecUnit) (ph : Phase) : Prop :=
  u.dcause ≠ some .protocolViolation ∧ (u.dfail = false → u.dph = ph)

theorem decSymUnit_follows {u : DecUnit} {ph : Phase} (sym : Symbol) (last : Bool) (h : u.Follows ph)
    (hph : ph ≠ .closed) : (decSymUnit T sym last u).Follows (phaseAfter last) := by
  obtain ⟨hcause, hphase⟩ := h
  rcases decSymUnit_cases T sym last u with
    ⟨hf, hunit⟩ | ⟨hf, hp, -⟩ | ⟨-, -, c, hc, hunit⟩ | ⟨-, -, n, v, -, hunit⟩
  · rw [hunit]
    exact ⟨hcause, fun hf' => by simp [hf] at hf'⟩
  · exact absurd ((hphase hf).symm.trans hp) hph
  · rw [hunit]
    refine ⟨?_, nofun⟩
    obtain ⟨-, hkind⟩ := contribution_fail hc
    rcases hkind with ⟨-, rfl⟩ | ⟨-, -, rfl⟩ | ⟨t, -, -, -, rfl⟩ | ⟨t, -, -, -, -, rfl⟩ <;> exact nofun
  · rw [hunit]
    exact ⟨hcause, fun _ => rfl⟩

/-- A cleared unit follows from phase EMPTY. -/
theorem follows_empty {u : DecUnit} (hcause : u.dcause = none) (hph : u.dph = .empty) : u.Follows .empty :=
  ⟨by rw [hcause]; exact nofun, fun _ => hph⟩

/-- One operation of a well marked sequence: what is left of it is well marked from the phase the unit is in. -/
theorem applyOp_follows {i : Instr} {rest : List Instr} {ph : Phase} {s : State}
    (hmarked : wellMarkedFrom ph (i :: rest) = true) (h : s.dec.Follows ph) :
    ∃ ph', wellMarkedFrom ph' rest = true ∧ (applyOp T i s).dec.Follows ph' := by
  cases i with
  | encStart | encByte | encEnd => exact ⟨ph, by simpa [wellMarkedFrom] using hmarked, h⟩
  | decStart => exact ⟨.empty, by simpa [wellMarkedFrom] using hmarked, follows_empty rfl rfl⟩
  | decEnd =>
    simp only [wellMarkedFrom, Bool.and_eq_true] at hmarked
    exact ⟨.empty, hmarked.2, follows_empty rfl rfl⟩
  | decSym sym last =>
    simp only [wellMarkedFrom, Bool.and_eq_true, decide_eq_true_iff] at hmarked
    exact ⟨phaseAfter last, hmarked.2, decSymUnit_follows sym last h hmarked.1⟩

theorem runOps_follows (ops : List Instr) {rest : List Instr} {ph : Phase} {s : State}
    (hmarked : wellMarkedFrom ph (ops ++ rest) = true) (h : s.dec.Follows ph) :
    ∃ ph', wellMarkedFrom ph' rest = true ∧ (runOps T ops s).dec.Follows ph' := by
  induction ops generalizing ph s with
  | nil => exact ⟨ph, hmarked, h⟩
  | cons i ops ih =>
    obtain ⟨ph', hmarked', h'⟩ := applyOp_follows (T := T) hmarked h
    exact ih hmarked' h'

/-- Settles O55: the unit follows the check, which lets a `DEC.END` come in no phase but EMPTY and CLOSED. -/
theorem wellMarkedOpsViolateNoProtocol : Obligations.WellMarkedOpsViolateNoProtocol := by
  intro T ops s hclear
  obtain ⟨-, -, -, -, -, -, hph, hcause⟩ := hclear
  have hstart : s.dec.Follows .empty := follows_empty hcause hph
  refine ⟨fun hmarked => ?_, fun hmarked => ?_⟩
  · rw [wellMarked, ← List.append_nil ops] at hmarked
    obtain ⟨-, -, hno, -⟩ := runOps_follows (T := T) ops hmarked hstart
    exact hno
  · obtain ⟨ph, hend, -, hphase⟩ := runOps_follows (T := T) ops hmarked hstart
    rintro ⟨hf, hopened⟩
    obtain rfl : ph = .opened := (hphase hf).symm.trans hopened
    exact absurd hend (by decide)

end Sys2Proof.Machine
end

section
/-! The machine stepped over the words of a transaction (30_encoding.md R102). -/

namespace Sys2Proof.Machine

/-- An operation leaves what is still to be issued, and does not depend on it. -/
theorem applyOp_with_pending (T : Tables) (i : Instr) (s : State) (l : List HostEvent) :
    applyOp T i { s with pending := l } = { applyOp T i s with pending := l } := by
  cases i <;> rfl

theorem runOps_with_pending (T : Tables) (ops : List Instr) (s : State) (l : List HostEvent) :
    runOps T ops { s with pending := l } = { runOps T ops s with pending := l } := by
  induction ops generalizing s with
  | nil => rfl
  | cons i ops ih => rw [runOps_cons, runOps_cons, applyOp_with_pending, ih]

/-- A run goes on from the state its first step answers. -/
theorem run_succ_of_step {M : Host.Core} {k : Nat} {s t : M.State} (h : M.step s = .next t) :
    M.run (k + 1) s = M.run k t := by
  rw [Host.Core.run, h]

/-- Stepped over the canonical words of operations, the machine comes to what the operations come to. -/
theorem run_issued (ops : List Instr) {s : State} {rest : List HostEvent} (h : s.pending = issued ops ++ rest) :
    Host.Core.run Sys2Proof.core ops.length s = .next { runOps Config.tables ops s with pending := rest } := by
  induction ops generalizing s with
  | nil =>
    obtain rfl : s.pending = rest := h
    rfl
  | cons i ops ih =>
    have hstep : step s = .next { applyOp Config.tables i s with pending := issued ops ++ rest } := by
      rw [step_of_op h (decodeInvertsEncode i), exec_eq_applyOp, applyOp_with_pending]
      rfl
    have hrest := ih (s := { applyOp Config.tables i s with pending := issued ops ++ rest }) rfl
    rw [runOps_with_pending, ← runOps_cons] at hrest
    exact (run_succ_of_step (M := Sys2Proof.core) hstep).trans hrest

theorem encodeOps_length (bs : List Byte) : (encodeOps bs).length = bs.length + 2 := by simp [encodeOps]

theorem symbolOps_length (ss : List Symbol) : (symbolOps ss).length = ss.length := by
  induction ss with
  | nil => rfl
  | cons x ss ih => rw [symbolOps_cons, List.length_cons, List.length_cons, ih]

theorem decodeOps_length (ss : List Symbol) : (decodeOps ss).length = ss.length + 2 := by
  simp [decodeOps, symbolOps_length]

/-- Operations of one port leave the other unit alone. -/
theorem runOps_dec_of_enc (T : Tables) {ops : List Instr} (h : ∀ i ∈ ops, i.port = .enc) (s : State) :
    (runOps T ops s).dec = s.dec := by
  induction ops generalizing s with
  | nil => rfl
  | cons i ops ih =>
    rw [List.forall_mem_cons] at h
    rw [runOps_cons, ih h.2, (applyOp_of_enc T h.1 s).1]

theorem runOps_enc_of_dec (T : Tables) {ops : List Instr} (h : ∀ i ∈ ops, i.port = .dec) (s : State) :
    (runOps T ops s).enc = s.enc := by
  induction ops generalizing s with
  | nil => rfl
  | cons i ops ih =>
    rw [List.forall_mem_cons] at h
    rw [runOps_cons, ih h.2, (applyOp_of_dec T h.1 s).1]

theorem encodeOps_port (bs : List Byte) : ∀ i ∈ encodeOps bs, i.port = .enc := by
  rw [encodeOps, List.forall_mem_cons, List.forall_mem_append, List.forall_mem_map, List.forall_mem_singleton]
  exact ⟨rfl, fun _ _ => rfl, rfl⟩

theorem symbolOps_port (ss : List Symbol) : ∀ i ∈ symbolOps ss, i.port = .dec := by
  induction ss with
  | nil => exact nofun
  | cons x ss ih =>
    rw [symbolOps_cons, List.forall_mem_cons]
    exact ⟨rfl, ih⟩

theorem decodeOps_port (ss : List Symbol) : ∀ i ∈ decodeOps ss, i.port = .dec := by
  rw [decodeOps, List.forall_mem_cons, List.forall_mem_append, List.forall_mem_singleton]
  exact ⟨rfl, symbolOps_port ss, rfl⟩

/-- Settles O56: the run is that of the operations, whose log is the closed form. -/
theorem machineRunsEncode : Obligations.MachineRunsEncode := by
  intro s bs rest h
  have hrun := run_issued (encodeOps bs) h
  rw [encodeOps_length] at hrun
  exact ⟨_, hrun, rfl, runOps_dec_of_enc Config.tables (encodeOps_port bs) s, runOps_encodeOps_log Config.tables s bs⟩

/-- No operation takes a byte out of the DEC log. -/
theorem applyOp_dec_log_extends (T : Tables) (i : Instr) (s : State) : s.dec.log <+: (applyOp T i s).dec.log := by
  cases i with
  | encStart | encByte | encEnd => exact ⟨[], List.append_nil _⟩
  | decStart => exact ⟨_, (decStartUnit_log s.dec).symm⟩
  | decSym sym last => exact ⟨_, (decSymUnit_log T sym last s.dec).symm⟩
  | decEnd => exact ⟨_, (decEndUnit_log s.dec).symm⟩

theorem runOps_dec_log_extends (T : Tables) (ops : List Instr) (s : State) :
    s.dec.log <+: (runOps T ops s).dec.log := by
  induction ops generalizing s with
  | nil => exact ⟨[], List.append_nil _⟩
  | cons i ops ih => exact (applyOp_dec_log_extends T i s).trans (ih _)

/-- `DEC.END` reports whether the transaction of `decode` has a value. -/
theorem runOps_decodeOps_status (T : Tables) (s : State) (ss : List Symbol) :
    (runOps T (decodeOps ss) s).dec.status = some (decodeFrom T s ss).isSome := by
  have hend : runOps T (decodeOps ss) s = decEndWith T (beforeDecEnd T s ss) := runOps_append T _ _ _
  rw [hend, decodeFrom_eq]
  change some (decEndOk (beforeDecEnd T s ss).dec) = _
  split_ifs with hok <;> simp [hok]

/-- The value of the transaction of `decode`, if it has one, is appended to the log. -/
theorem runOps_decodeOps_log {T : Tables} {s : State} {ss : List Symbol} {bs : List Byte}
    (h : decodeFrom T s ss = some bs) : (runOps T (decodeOps ss) s).dec.log = s.dec.log ++ bs := by
  obtain ⟨new, hnew⟩ := runOps_dec_log_extends T (decodeOps ss) s
  simp only [decodeFrom] at h
  split_ifs at h
  rw [← hnew, List.drop_left] at h
  rw [← hnew, Option.some.inj h]

/-- Settles O57: the run is that of the operations, whose value is the closed form. -/
theorem machineRunsDecode : Obligations.MachineRunsDecode := by
  intro s ss rest h
  have hrun := run_issued (decodeOps ss) h
  rw [decodeOps_length] at hrun
  have hclosed := decodeMatchesClosedForm Config.tables s ss
  refine ⟨_, hrun, rfl, runOps_enc_of_dec Config.tables (decodeOps_port ss) s, ?_, fun bs hbs => ?_⟩
  · rw [← hclosed]
    exact runOps_decodeOps_status Config.tables s ss
  · exact runOps_decodeOps_log (hclosed.trans hbs)

end Sys2Proof.Machine
end
